-- ==== Sys2Proof/Word.lean ====
section
/-! DEFINITION. The eight-bit word of the machine and its two readings. -/

namespace Sys2Proof

/-- `bits8`: a tape cell, a program character, an input byte or an output value
(00_scope.md R4, R7). -/
abbrev Byte := BitVec 8

/-- The unsigned reading `uval`, in `0 .. 255` (R7). -/
abbrev uval (c : Byte) : Nat := c.toNat

/-- The two's-complement reading `sval`, in `-128 .. 127` (R7). -/
abbrev sval (c : Byte) : Int := c.toInt

end Sys2Proof
end

