-- ==== Sys2Proof/Syntax.lean ====
section
/-! DEFINITION. The nine instructions of 30_encoding.md R62, R63: one constructor per row of the
opcode table. No instruction has an operand field (R64). -/

namespace Sys2Proof

/-- The instruction set. Only `nop` stands for more than one word: it keeps the character it was
read from, because a model must keep the ignored characters of a text (45_nop.md R161). -/
inductive Instr
  /-- `+` (`INC`), 42_cell_arith.md R110. -/
  | inc
  /-- `,` (`IN`), 43_io.md R121. -/
  | inp
  /-- `-` (`DEC`), 42_cell_arith.md R111. -/
  | dec
  /-- `.` (`OUT`), 43_io.md R120. -/
  | out
  /-- `<` (`LEFT`), 41_pointer.md R100. -/
  | left
  /-- `>` (`RIGHT`), 41_pointer.md R101. -/
  | right
  /-- `[` (`JZ`), 44_loop.md R140. -/
  | jz
  /-- `]` (`JNZ`), 44_loop.md R141. -/
  | jnz
  /-- `NOP`, any other character, 45_nop.md R160; `code` is that character. -/
  | nop (code : Byte)
  deriving DecidableEq, Repr

end Sys2Proof
end

