-- ==== Sys2Proof/WellFormed.lean ====
section
/-! DEFINITION. Which instruction terms stand for a word of the machine. Whether a whole text is well
formed (70_reset_and_hazards.md R201) is `Machine/Validate.lean`. -/

namespace Sys2Proof

/-- The eight codes a `NOP` does not have, in the order 45_nop.md R160 lists them. -/
def Instr.notNopCodes : List Byte :=
  [0x2B, 0x2C, 0x2D, 0x2E, 0x3C, 0x3E, 0x5B, 0x5D]

/-- A `nop` term is well formed when its character is none of the eight instruction characters
(R63, R160); every other term is one word. -/
def Instr.wellFormed : Instr → Bool
  | .inc => true
  | .inp => true
  | .dec => true
  | .out => true
  | .left => true
  | .right => true
  | .jz => true
  | .jnz => true
  | .nop code => !Instr.notNopCodes.contains code

end Sys2Proof
end

