-- ==== Sys2Proof/Decode.lean ====
section
/-! DEFINITION. The decoder from characters to instructions and the encoder back, both from the opcode
map of 30_encoding.md R62, R63. The eight numeric codes are ASCII, which the spec supplies from
general knowledge (G1); notes/assumptions/9.md. -/

namespace Sys2Proof

/-- `+`, R62. -/
def codeInc : Byte := 0b00101011
/-- `,`, R62. -/
def codeInp : Byte := 0b00101100
/-- `-`, R62. -/
def codeDec : Byte := 0b00101101
/-- `.`, R62. -/
def codeOut : Byte := 0b00101110
/-- `<`, R62. -/
def codeLeft : Byte := 0b00111100
/-- `>`, R62. -/
def codeRight : Byte := 0b00111110
/-- `[`, R62. -/
def codeJz : Byte := 0b01011011
/-- `]`, R62. -/
def codeJnz : Byte := 0b01011101

/-- One exact row of the opcode map: the word matches when its bits under `mask` equal `pattern`. -/
structure OpcodeRow where
  mask    : Byte
  pattern : Byte
  instr   : Instr
  deriving DecidableEq, Repr

/-- The eight exact rows of R62; "a decoder compares all eight bits". -/
def opcodeRows : List OpcodeRow :=
  [⟨0xFF, codeInc, .inc⟩, ⟨0xFF, codeInp, .inp⟩, ⟨0xFF, codeDec, .dec⟩, ⟨0xFF, codeOut, .out⟩,
   ⟨0xFF, codeLeft, .left⟩, ⟨0xFF, codeRight, .right⟩, ⟨0xFF, codeJz, .jz⟩, ⟨0xFF, codeJnz, .jnz⟩]

/-- Does the word match the row? -/
def OpcodeRow.hits (r : OpcodeRow) (c : Byte) : Bool := c &&& r.mask == r.pattern

/-- Decode one character: the exact row it matches, else `NOP` (R62, R63). Total: no code is illegal
(R65). -/
def decode (c : Byte) : Instr :=
  match opcodeRows.find? (fun r => r.hits c) with
  | some r => r.instr
  | none => .nop c

/-- Why no instruction can be read from bytes. -/
inductive DecodeError
  /-- There is no character left: address `L` "holds no character" (20_memory.md R42). -/
  | endOfText
  deriving DecidableEq, Repr

/-- Read one instruction from the front of a text: it is one character long (R60), and the rest of the
text is handed back. -/
def decodeText : List Byte → Except DecodeError (Instr × List Byte)
  | [] => .error .endOfText
  | c :: rest => .ok (decode c, rest)

/-- The word of a well-formed instruction (R62, R63). -/
def encode : Instr → Byte
  | .inc => codeInc
  | .inp => codeInp
  | .dec => codeDec
  | .out => codeOut
  | .left => codeLeft
  | .right => codeRight
  | .jz => codeJz
  | .jnz => codeJnz
  | .nop code => code

/-- The instructions of a text, address 0 first: every character is one (R60, R68). -/
def decodeProgram (text : List Byte) : List Instr := text.map decode

/-- The text of a list of instructions, address 0 first. -/
def encodeProgram (is : List Instr) : List Byte := is.map encode

/-- The character whose bits are the low `nbits` bits of `w`, the bits above them 0. -/
def tableByte (nbits w : Nat) : Byte := BitVec.ofNat 8 (w % 2 ^ nbits)

/-- The instruction the decoder reads from an opcode-table word of `nbits` bits. An instruction has
exactly 8 bits (R60, R61), so a longer word is no instruction. -/
def decodeTableWord (nbits w : Nat) : Option Instr :=
  if nbits ≤ 8 then
    match decodeText [tableByte nbits w] with
    | .ok (i, _) => some i
    | .error _ => none
  else none

end Sys2Proof
end

