-- ==== Sys2Proof/Config.lean ====
section
/-! DEFINITION. The implementation parameters of 00_scope.md R4. `PROG_CAP` is left open by the spec
(D17) and the model places no bound on the program length. No parameter is a free value: the engine
draws none (40_execution_loop.md R86). -/

namespace Sys2Proof.Config

/-- `TAPE_LEN`: the number of tape cells (R4, R41). -/
def tapeLen : Nat := 30000

/-- `DP_W`: the width of the data-pointer register in bits (R4). -/
def dpW : Nat := 15

/-- `PC_W`: the width in bits of the program-counter register for a text of `L` characters (R4). -/
def pcW (L : Nat) : Nat := max 1 (Nat.clog 2 (L + 1))

/-- What a cell holds that no step has written since `Reset` (20_memory.md R43, 10_state.md R20). -/
def unwrittenCell : Byte := 0x00

end Sys2Proof.Config
end

