-- ==== Sys2Proof/Machine/State.lean ====
section
/-! DEFINITION. What the machine holds: the five items of 10_state.md R10, the program text the
transition relation is fixed over (R11), and the model's own record of the trace and of the host's
plan. Everything is plain data. -/

namespace Sys2Proof.Machine

/-- The program text: characters by address, address 0 first (20_memory.md R42). -/
abbrev Text := List Byte

/-- The tape as the list of its non-zero cells, addresses strictly rising; `Memory.wf` in
`Machine/Ops.lean` says the form. An unlisted cell reads `Config.unwrittenCell`. -/
abbrev Memory := List Host.Cell

/-- `STATUS`, 10_state.md R15. -/
inductive Status
  | ready
  | running
  | awaitingInput
  | halted
  | fatal
  deriving DecidableEq, Repr

/-- The fatal error kinds, 60_exceptions.md R170. -/
inductive FatalKind
  | structuralError
  | tapeUnderflow
  | tapeOverflow
  deriving DecidableEq, Repr

/-- The commands of the host, 40_execution_loop.md R90. -/
inductive Command
  /-- `Reset(PROG)`, 70_reset_and_hazards.md R200. -/
  | reset (text : List Byte)
  /-- `Start`, R81. -/
  | start
  /-- `Deliver(b)`, R122, R123. -/
  | deliver (b : Byte)
  deriving DecidableEq, Repr

/-- The events of the engine, 10_state.md R23. -/
inductive Event
  /-- `Out(v)`, R120. -/
  | out (v : Byte)
  /-- `AwaitBegin`, R121. -/
  | awaitBegin
  /-- `AwaitEnd`, R122. -/
  | awaitEnd
  /-- `Halt`, R82. -/
  | halt
  /-- `Fatal(k)`, R175. -/
  | fatal (k : FatalKind)
  /-- `Misuse`, R174. -/
  | misuse
  deriving DecidableEq, Repr

/-- One entry of the trace: an event, or a command "at the point they are issued" (R23). -/
inductive TraceItem
  | command (c : Command)
  | event (e : Event)
  deriving DecidableEq, Repr

/-- What the host does next: issue a command, or let the engine take its own transition.
DESIGN CHOICE, notes/assumptions/2.md. -/
inductive HostMove
  | command (c : Command)
  | engine
  deriving DecidableEq, Repr

/-- The state of the machine. The five fields `tape` to `err` are the spec's (R10). -/
structure State where
  /-- `PROG`, fixed by the last `Reset` (R11). -/
  prog   : Text
  /-- `TAPE` (R12). -/
  tape   : Memory
  /-- `PC`, in `0 .. L` (R13). -/
  pc     : Nat
  /-- `DP`, in `0 .. 29999` (R14). -/
  dp     : Nat
  /-- `STATUS` (R15). -/
  status : Status
  /-- `ERR` (R16); `none` is its value `None`. -/
  err    : Option FatalKind
  /-- The model's own: the trace so far, oldest entry first (R23). DESIGN CHOICE, log 4. -/
  trace  : List TraceItem
  /-- The model's own: what the host still plans (R6, R85). DESIGN CHOICE, log 2. -/
  host   : List HostMove
  deriving DecidableEq, Repr

/-- Why the machine stops. The spec's own faults are next states (R175); each of these is raised only
in states that no run from `Reset` reaches. -/
inductive Fault
  /-- Raised by an instruction or a `Deliver` that accesses the tape while `DP` is not an address of the
  tape (20_memory.md R41, R48). Safe: the spec gives no such access. -/
  | tapeAddressOutside
  /-- Raised by the engine's step when `PC` is beyond the terminal value `L` (R13, R54). Safe. -/
  | fetchOutsideProgram
  /-- Raised by a taken `[` or `]` whose scan leaves the text: "this spec gives them no meaning there"
  (44_loop.md R145). Safe. -/
  | scanLeftProgram
  deriving DecidableEq, Repr

/-- Why an instruction has no meaning in the model. -/
inductive Refusal
  /-- Raised by an arm of `exec` whose instruction is not modelled yet; no arm is. Safe. -/
  | notModelled (mnemonic : String)
  deriving DecidableEq, Repr

/-- The machine right after a `Reset` with the empty text, which is well formed (R20, R203, R67).
The empty text, trace and plan are DESIGN CHOICE, notes/assumptions/5.md. -/
def State.reset : State where
  prog   := []
  tape   := []
  pc     := 0
  dp     := 0
  status := .ready
  err    := none
  trace  := []
  host   := []

end Sys2Proof.Machine
end

