-- ==== Sys2Proof/Machine/Ops.lean ====
section
/-! DEFINITION. The operations over the tape and the registers that every meaning is written with, and
the one fault entry. -/

namespace Sys2Proof.Machine

/-! ### The tape as data -/

/-- The cell at an address: the listed value, else what an unwritten cell holds (20_memory.md R43). -/
def Memory.read : Memory → Nat → Byte
  | [], _ => Config.unwrittenCell
  | (b, w) :: m, a => if a = b then w else Memory.read m a

/-- A cell as a list: nothing where the value is what an unlisted cell reads as. -/
def Memory.entry (a : Nat) (v : Byte) : Memory :=
  if v = Config.unwrittenCell then [] else [(a, v)]

/-- Set the cell at an address and change no other cell (R43), keeping the canonical form. -/
def Memory.write : Memory → Nat → Byte → Memory
  | [], a, v => Memory.entry a v
  | (b, w) :: m, a, v =>
    if a < b then Memory.entry a v ++ (b, w) :: m
    else if a = b then Memory.entry a v ++ m
    else (b, w) :: Memory.write m a v

/-- Every listed address is above `lo`'s bound, rising, on the tape, and holds a listed value. -/
def Memory.wfFrom : Nat → Memory → Bool
  | _, [] => true
  | lo, (b, w) :: m =>
    decide (lo ≤ b) && decide (b < Config.tapeLen) && (w != Config.unwrittenCell) &&
      Memory.wfFrom (b + 1) m

/-- The canonical form: addresses strictly rising and on the tape, no entry equal to what an unlisted
cell reads as. -/
def Memory.wf (m : Memory) : Bool := Memory.wfFrom 0 m

/-! ### Writing a register -/

/-- `PC <- n`. -/
def State.setPc (s : State) (n : Nat) : State := { s with pc := n }
/-- `DP <- n`. -/
def State.setDp (s : State) (n : Nat) : State := { s with dp := n }
/-- Put another tape in place. -/
def State.setTape (s : State) (m : Memory) : State := { s with tape := m }
/-- `STATUS <- v`. -/
def State.setStatus (s : State) (v : Status) : State := { s with status := v }
/-- `ERR <- v`. -/
def State.setErr (s : State) (v : Option FatalKind) : State := { s with err := v }
/-- Put another plan of the host in place. -/
def State.setHost (s : State) (ms : List HostMove) : State := { s with host := ms }
/-- Append an entry to the trace. -/
def State.note (s : State) (x : TraceItem) : State := { s with trace := s.trace ++ [x] }
/-- `emit e` (00_scope.md R8). -/
def State.emit (s : State) (e : Event) : State := s.note (.event e)

/-- The default advance, `PC <- PC + 1` (40_execution_loop.md R84). -/
def State.advance (s : State) : State := s.setPc (s.pc + 1)

/-! ### Accessing the tape -/

/-- `MemRead(a, 1)`, defined for addresses of the tape (R8, R43). -/
def memRead (s : State) (a : Nat) : Except Fault Byte :=
  if a < Config.tapeLen then .ok (Memory.read s.tape a) else .error .tapeAddressOutside

/-- `MemWrite(a, 1, v)`, defined for addresses of the tape (R8, R43). -/
def memWrite (s : State) (a : Nat) (v : Byte) : Except Fault State :=
  if a < Config.tapeLen then .ok (s.setTape (Memory.write s.tape a v)) else .error .tapeAddressOutside

/-- The outcome of a meaning: the state it computes, or the stop. -/
def outcome : Except Fault State → Host.Outcome State Fault Refusal
  | .ok s => .next s
  | .error f => .fault f

/-! ### The fault entry and the rejection -/

/-- `raise Fatal(k)`: `STATUS <- Fatal; ERR <- k; emit Fatal(k)` and nothing else (60_exceptions.md
R175). There is no return from it: only `Reset` leaves `Fatal` (R177, R180). -/
def State.raiseFatal (s : State) (k : FatalKind) : State :=
  ((s.setStatus .fatal).setErr (some k)).emit (.fatal k)

/-- `reject`: emit `Misuse` and change no state (R174). -/
def State.reject (s : State) : State := s.emit .misuse

end Sys2Proof.Machine
end

