-- ==== Sys2Proof/Machine/Operands.lean ====
section
/-! DEFINITION. The one operand form of the machine: the current cell `TAPE[DP]` (10_state.md R17,
30_encoding.md R64). -/

namespace Sys2Proof.Machine

/-- The address of every data access, the current value of `DP` (20_memory.md R41). -/
def cellAddress (s : State) : Nat := s.dp

/-- Read the current cell. -/
def readCell (s : State) : Except Fault Byte := memRead s (cellAddress s)

/-- Write the current cell. -/
def writeCell (s : State) (v : Byte) : Except Fault State := memWrite s (cellAddress s) v

end Sys2Proof.Machine
end

