-- ==== Sys2Proof/Machine/Validate.lean ====
section
/-! DEFINITION. The construction-time validation of a text (70_reset_and_hazards.md R201). -/

namespace Sys2Proof.Machine

/-- The last-in-first-out scan: push on `[`, on `]` pop and compare; what is left must be empty. -/
def validateScan : List Byte → Text → Bool
  | stack, [] => stack.isEmpty
  | stack, c :: cs =>
    if c = codeJz then validateScan (codeJz :: stack) cs
    else if c = codeJnz then
      match stack with
      | [] => false
      | t :: below => if t = codeJz then validateScan below cs else false
    else validateScan stack cs

/-- `WellFormed(PROG)` (R201). -/
def wellFormed (text : Text) : Bool := validateScan [] text

end Sys2Proof.Machine
end

