-- ==== Sys2Proof/Machine/Commands.lean ====
section
/-! DEFINITION. The three commands of the host (40_execution_loop.md R81, 43_io.md R122, R123,
70_reset_and_hazards.md R200, R203). -/

namespace Sys2Proof.Machine

/-- `Start` (R81): accepted in `Ready` only; an accepted one emits nothing. -/
def startCommand (s : State) : State :=
  if s.status = .ready then s.setStatus .running else s.reject

/-- The completion half of the pending `,` (R122), its four actions in the source's order. -/
def completeInput (b : Byte) (s : State) : Except Fault State := do
  let s' ← writeCell s b
  .ok ((s'.advance.emit .awaitEnd).setStatus .running)

/-- `Deliver(b)`: accepted in `AwaitingInput` only (R122); elsewhere rejected, the byte discarded
(R123). -/
def deliverCommand (b : Byte) (s : State) : Except Fault State :=
  if s.status = .awaitingInput then completeInput b s else .ok s.reject

/-- Every piece of engine state at its reset value, over a new text (10_state.md R20, R200). The trace
keeps what was emitted (R206) and the plan of the host goes on. -/
def State.construct (s : State) (text : Text) : State where
  prog   := text
  tape   := []
  pc     := 0
  dp     := 0
  status := .ready
  err    := none
  trace  := s.trace
  host   := s.host

/-- `Reset(PROG)` (R200), accepted in any status (R206): fix the text, set the state, validate
(R203). -/
def resetCommand (text : Text) (s : State) : State :=
  if wellFormed text then s.construct text else (s.construct text).raiseFatal .structuralError

/-- One command of the host, recorded in the trace at the point it is issued (10_state.md R23) and
evaluated against the status then current (R85). -/
def issue (c : Command) (s : State) : Host.Outcome State Fault Refusal :=
  match c with
  | .reset text => .next (resetCommand text (s.note (.command (.reset text))))
  | .start => .next (startCommand (s.note (.command .start)))
  | .deliver b => outcome (deliverCommand b (s.note (.command (.deliver b))))

end Sys2Proof.Machine
end

