-- ==== Sys2Proof/Machine/Flags.lean ====
section
/-! DEFINITION. The machine has no flags (10_state.md R18). What stands here are its two arithmetic
operations, which record no carry, overflow, sign or zero anywhere, and its one test, which leaves
no record (42_cell_arith.md R112, R113). -/

namespace Sys2Proof.Machine

/-- Cell plus one, modulo 256 (R110). -/
def cellPlusOne (v : Byte) : Byte := BitVec.ofNat 8 ((uval v + 1) % 256)

/-- Cell minus one, modulo 256, computed as plus 255 (R111). -/
def cellMinusOne (v : Byte) : Byte := BitVec.ofNat 8 ((uval v + 255) % 256)

/-- The zero test of `[` and `]`: all eight bits clear (R113). -/
def cellIsZero (v : Byte) : Bool := uval v == 0

end Sys2Proof.Machine
end

