-- ==== Sys2Proof/Machine/CellArith.lean ====
section
/-! DEFINITION. The cell arithmetic instructions (42_cell_arith.md). -/

namespace Sys2Proof.Machine

/-- Replace the current cell by a function of it and advance: the shape `+` and `-` share. -/
def updateCell (f : Byte → Byte) (s : State) : Except Fault State := do
  let v ← readCell s
  let s' ← writeCell s (f v)
  .ok s'.advance

/-- `+` (R110). -/
def execInc (s : State) : Host.Outcome State Fault Refusal := outcome (updateCell cellPlusOne s)

/-- `-` (R111). -/
def execDec (s : State) : Host.Outcome State Fault Refusal := outcome (updateCell cellMinusOne s)

end Sys2Proof.Machine
end

