-- ==== Sys2Proof/Machine/Io.lean ====
section
/-! DEFINITION. Output, and the request half of input (43_io.md). The completion half of `,` is the
`Deliver` command, `Machine/Commands.lean`. -/

namespace Sys2Proof.Machine

/-- `.` (R120): emit the eight bits of the current cell unchanged (R124) and advance. -/
def execOut (s : State) : Host.Outcome State Fault Refusal :=
  outcome do
    let v ← readCell s
    .ok (s.emit (.out v)).advance

/-- `,` (R121): announce that a byte is needed and suspend; `PC` stays at the `,`. -/
def execInp (s : State) : Host.Outcome State Fault Refusal :=
  .next ((s.emit .awaitBegin).setStatus .awaitingInput)

end Sys2Proof.Machine
end

