-- ==== Sys2Proof/Machine/Resolver.lean ====
section
/-! DEFINITION. The loop-bracket jump resolver (44_loop.md R142, R143) and the jump table that may stand
in its place (R144). -/

namespace Sys2Proof.Machine

/-- The nesting counter after one more character of the forward scan: `[` adds one, `]` takes one. -/
def depthFwd (c : Byte) (depth : Nat) : Nat :=
  if c = codeJz then depth + 1 else if c = codeJnz then depth - 1 else depth

/-- The nesting counter after one more character of the backward scan: `]` adds one, `[` takes one. -/
def depthBwd (c : Byte) (depth : Nat) : Nat :=
  if c = codeJnz then depth + 1 else if c = codeJz then depth - 1 else depth

/-- Scan the characters from address `j` on, until the counter is 0. -/
def scanFwd : Text → Nat → Nat → Option Nat
  | [], _, _ => none
  | c :: cs, depth, j =>
    if depthFwd c depth = 0 then some j else scanFwd cs (depthFwd c depth) (j + 1)

/-- Scan characters that are listed from the highest address down to address 0, until the counter is
0. The address of the first listed one is the number of those after it. -/
def scanBwd : Text → Nat → Option Nat
  | [], _ => none
  | c :: cs, depth =>
    if depthBwd c depth = 0 then some cs.length else scanBwd cs (depthBwd c depth)

/-- `MatchFwd(i)` (R142); `none` when the scan leaves the text. -/
def matchFwd (text : Text) (i : Nat) : Option Nat := scanFwd (text.drop (i + 1)) 1 (i + 1)

/-- `MatchBwd(j)` (R143); `none` when the scan leaves the text. -/
def matchBwd (text : Text) (j : Nat) : Option Nat := scanBwd (text.take j).reverse 1

/-- The scan of the validation with the addresses of the open `[` on its stack: each `]` records the
pair of its own address and the one it pops (R144). -/
def tableScan : List Nat → Text → Nat → List (Nat × Nat)
  | _, [], _ => []
  | stack, c :: cs, k =>
    if c = codeJz then tableScan (k :: stack) cs (k + 1)
    else if c = codeJnz then
      match stack with
      | [] => tableScan [] cs (k + 1)
      | i :: below => (i, k) :: tableScan below cs (k + 1)
    else tableScan stack cs (k + 1)

/-- The precomputed jump table: the pairs `(i, j)` of matching brackets (R144). -/
def jumpTable (text : Text) : List (Nat × Nat) := tableScan [] text 0

end Sys2Proof.Machine
end

