-- ==== Sys2Proof/Machine/Loop.lean ====
section
/-! DEFINITION. The loop instructions (44_loop.md). -/

namespace Sys2Proof.Machine

/-- A taken jump: land on the instruction after the matching bracket (R140, R141). -/
def jumpPast (s : State) : Option Nat → Except Fault State
  | some j => .ok (s.setPc (j + 1))
  | none => .error .scanLeftProgram

/-- `[` (R140): past the matching `]` over a zero cell, else fall through. -/
def execJz (s : State) : Host.Outcome State Fault Refusal :=
  outcome do
    let v ← readCell s
    if cellIsZero v then jumpPast s (matchFwd s.prog s.pc) else .ok s.advance

/-- `]` (R141): back to just after the matching `[` over a non-zero cell, else fall through. -/
def execJnz (s : State) : Host.Outcome State Fault Refusal :=
  outcome do
    let v ← readCell s
    if cellIsZero v then .ok s.advance else jumpPast s (matchBwd s.prog s.pc)

end Sys2Proof.Machine
end

