-- ==== Sys2Proof/Machine/Nop.lean ====
section
/-! DEFINITION. The no-op (45_nop.md). -/

namespace Sys2Proof.Machine

/-- Every other character (R160): advance. -/
def execNop (s : State) : Host.Outcome State Fault Refusal := .next s.advance

end Sys2Proof.Machine
end

