-- ==== Sys2Proof/Machine/Pointer.lean ====
section
/-! DEFINITION. The pointer instructions (41_pointer.md). -/

namespace Sys2Proof.Machine

/-- `<` (R100): the would-be result is tested and not committed when it is below 0. -/
def execLeft (s : State) : Host.Outcome State Fault Refusal :=
  let r : Int := (s.dp : Int) - 1
  if r < 0 then .next (s.raiseFatal .tapeUnderflow)
  else .next (s.setDp r.toNat).advance

/-- `>` (R101): the would-be result is tested and not committed when it is `TAPE_LEN` or more. -/
def execRight (s : State) : Host.Outcome State Fault Refusal :=
  let r : Nat := s.dp + 1
  if r ≥ Config.tapeLen then .next (s.raiseFatal .tapeOverflow)
  else .next (s.setDp r).advance

end Sys2Proof.Machine
end

