-- ==== Sys2Proof/Machine/Engine.lean ====
section
/-! DEFINITION. The engine's own transitions and the transition for one move of the host
(40_execution_loop.md R80, R82, R83, R90). -/

namespace Sys2Proof.Machine

/-- `Fetch(PC) = PROG[PC]` (20_memory.md R54). -/
def fetch (s : State) : Option Byte := s.prog[s.pc]?

/-- The halt step: `STATUS <- Halted; emit Halt` (R82). -/
def haltStep (s : State) : State := (s.setStatus .halted).emit .halt

/-- The instruction step: fetch, decode, and exactly one instruction rule (R83). -/
def instructionStep (s : State) : Host.Outcome State Fault Refusal :=
  match fetch s with
  | some c => exec (decode c) s
  | none => .fault .fetchOutsideProgram

/-- The engine's own step. Outside `Running` none is enabled (R80) and the state stays as it is:
DESIGN CHOICE, notes/assumptions/3.md. -/
def engineStep (s : State) : Host.Outcome State Fault Refusal :=
  if s.status = .running then
    if s.pc = s.prog.length then .next (haltStep s) else instructionStep s
  else .next s

/-- One transition of the system (R5, R90). -/
def transition (m : HostMove) (s : State) : Host.Outcome State Fault Refusal :=
  match m with
  | .command c => issue c s
  | .engine => engineStep s

/-- Take the next planned move of the host; with no plan left the engine goes on by itself (R85). -/
def nextTransition (s : State) : Host.Outcome State Fault Refusal :=
  match s.host with
  | [] => transition .engine s
  | m :: rest => transition m (s.setHost rest)

/-- Run a list of moves, stopping at the first fault or refusal. -/
def runMoves : List HostMove → State → Host.Outcome State Fault Refusal
  | [], s => .next s
  | m :: ms, s =>
    match transition m s with
    | .next t => runMoves ms t
    | .fault f => .fault f
    | .refused r => .refused r

end Sys2Proof.Machine
end

