-- ==== Sys2Proof/Machine/Load.lean ====
section
/-! DEFINITION. Placing one instruction where the engine fetches next, from outside the machine
(92_eei_decisions.md D24: how a text reaches the program space is not in the spec). The text placed is
one `Reset` accepts, since no other ever executes an instruction (70_reset_and_hazards.md R203);
notes/assumptions/6.md. -/

namespace Sys2Proof.Machine

/-- Over a text, with `u` unmatched `]` seen and `h` `[` open: how many `]` and `[` stay unmatched. -/
def unmatched : Text → Nat → Nat → Nat × Nat
  | [], u, h => (u, h)
  | c :: cs, u, h =>
    if c = codeJz then unmatched cs u (h + 1)
    else if c = codeJnz then
      match h with
      | 0 => unmatched cs (u + 1) 0
      | h' + 1 => unmatched cs u h'
    else unmatched cs u h

/-- The number of `]` of a text that match nothing before them. -/
def missingOpen (text : Text) : Nat := (unmatched text 0 0).1

/-- The number of `[` of a text that match nothing after them. -/
def missingClose (text : Text) : Nat := (unmatched text 0 0).2

/-- A text with a `[` put before it for each unmatched `]` and a `]` after it for each unmatched `[`. -/
def completeText (text : Text) : Text :=
  List.replicate (missingOpen text) codeJz ++ text ++ List.replicate (missingClose text) codeJnz

/-- A text with `c` at address `a`; a text that ends before `a` is lengthened with the no-op `0x00`. -/
def placeAt (text : Text) (a : Nat) (c : Byte) : Text :=
  (text ++ List.replicate (a + 1 - text.length) 0x00).set a c

/-- Put `c` where the engine fetches next and let the engine run: the text is completed to a well-formed
one, `PC` stays at `c`, and no planned move of the host comes first. -/
def State.loadWord (s : State) (c : Byte) : State :=
  let text := placeAt s.prog s.pc c
  { s with
    prog   := completeText text
    pc     := missingOpen text + s.pc
    status := .running
    err    := none
    host   := [] }

end Sys2Proof.Machine
end

