-- ==== Sys2Proof/Machine/Step.lean ====
section
/-! DEFINITION. The step of the whole machine. -/

namespace Sys2Proof.Machine

/-- One step: the host's next move, or the engine's own transition (40_execution_loop.md R85, R90). -/
def step (s : State) : Host.Outcome State Fault Refusal := nextTransition s

/-- `s` with the instruction whose bits are `w` placed where `step` fetches next. -/
def State.withFetchWord (s : State) (nbits w : Nat) : State := s.loadWord (tableByte nbits w)

end Sys2Proof.Machine
end

