-- ==== Sys2Proof/Machine/System.lean ====
section
/-! DEFINITION. Several engines side by side: the product of independent copies (60_exceptions.md
R183). -/

namespace Sys2Proof.Machine

/-- `n` engines. -/
abbrev System := List State

/-- Engine `k` takes its step; the others take none, for they share nothing. -/
def systemStep (k : Nat) (sys : System) : Host.Outcome System Fault Refusal :=
  match sys[k]? with
  | none => .next sys
  | some s =>
    match step s with
    | .next t => .next (sys.set k t)
    | .fault f => .fault f
    | .refused r => .refused r

end Sys2Proof.Machine
end

