-- ==== Sys2Proof/Machine/Run.lean ====
section
/-! DEFINITION. The source's two operations, `run` and `resume`, computed by iterating the engine's step
under fuel (40_execution_loop.md R89), and the result they return (10_state.md R24). -/

namespace Sys2Proof.Machine

/-- The engine's steps up to and including the first that leaves `Running`, at most `fuel` of them. -/
def runEngine : Nat → State → Host.Outcome State Fault Refusal
  | 0, s => .next s
  | fuel + 1, s =>
    if s.status = .running then
      match engineStep s with
      | .next t => runEngine fuel t
      | .fault f => .fault f
      | .refused r => .refused r
    else .next s

/-- Issue a command; if the status accepts it, run the engine, else the caller gets `Misuse` at once
(60_exceptions.md R174). -/
def callOperation (c : Command) (accepts : Status) (fuel : Nat) (s : State) :
    Host.Outcome State Fault Refusal :=
  match issue c s with
  | .next t => if s.status = accepts then runEngine fuel t else .next t
  | .fault f => .fault f
  | .refused r => .refused r

/-- One call of `run` (R89). -/
def runOperation (fuel : Nat) (s : State) : Host.Outcome State Fault Refusal :=
  callOperation .start .ready fuel s

/-- One call of `resume` with the byte `b` (R89). -/
def resumeOperation (b : Byte) (fuel : Nat) (s : State) : Host.Outcome State Fault Refusal :=
  callOperation (.deliver b) .awaitingInput fuel s

/-- The result variant `Halted | AwaitingInput | Fatal(error)` (R24). -/
inductive RunResult
  | halted
  | awaitingInput
  | fatal (k : FatalKind)
  deriving DecidableEq, Repr

/-- The result at a point where an operation returns; `none` where none has. -/
def State.result (s : State) : Option RunResult :=
  match s.status with
  | .halted => some .halted
  | .awaitingInput => some .awaitingInput
  | .fatal => s.err.map .fatal
  | .ready => none
  | .running => none

end Sys2Proof.Machine
end

