-- ==== Sys2Proof/Machine/Signals.lean ====
section
/-! DEFINITION. The signal-level realisation of 10_state.md R22: the levels and pulses the engine shows,
the addresses it puts on `prog_addr`, and one cycle of its input signals with the simultaneity rule
60_exceptions.md R179(c). `clk` counts nothing and is left out. -/

namespace Sys2Proof.Machine

/-- The 3-bit code of `STATUS` (R15). -/
def Status.code : Status → BitVec 3
  | .ready => 0b000
  | .running => 0b001
  | .awaitingInput => 0b010
  | .halted => 0b011
  | .fatal => 0b100

/-- The 2-bit code of `ERR` (R16). -/
def errCode : Option FatalKind → BitVec 2
  | none => 0b00
  | some .structuralError => 0b01
  | some .tapeUnderflow => 0b10
  | some .tapeOverflow => 0b11

/-- `awaiting` is 1 exactly while `STATUS = AwaitingInput` (R22, 43_io.md R125). -/
def State.awaiting (s : State) : Bool := s.status == .awaitingInput

/-- `prog_len` carries `L` (R22). -/
def State.progLen (s : State) : Nat := s.prog.length

/-- The output levels (R22). -/
structure Levels where
  status   : BitVec 3
  err      : BitVec 2
  awaiting : Bool
  deriving DecidableEq, Repr

/-- The levels in a state; they may be sampled at any time (R24). -/
def State.levels (s : State) : Levels where
  status   := s.status.code
  err      := errCode s.err
  awaiting := s.awaiting

/-- The addresses the validation of a text reads: "left to right, every character once", up to the first
unmatched `]` (70_reset_and_hazards.md R201). -/
def validateReads : List Byte → Text → Nat → List Nat
  | _, [], _ => []
  | stack, c :: cs, k =>
    k ::
      if c = codeJz then validateReads (codeJz :: stack) cs (k + 1)
      else if c = codeJnz then
        match stack with
        | [] => []
        | t :: below => if t = codeJz then validateReads below cs (k + 1) else []
      else validateReads stack cs (k + 1)

/-- The addresses the resolver scans for an instruction over a cell holding `v`: none where the bracket
falls through (44_loop.md R142, R143, R144). -/
def scanReads (i : Instr) (v : Byte) (s : State) : List Nat :=
  match i with
  | .jz =>
    if cellIsZero v then
      List.range' (s.pc + 1) ((matchFwd s.prog s.pc).getD (s.prog.length - 1) - s.pc)
    else []
  | .jnz =>
    if cellIsZero v then []
    else (List.range' ((matchBwd s.prog s.pc).getD 0) (s.pc - (matchBwd s.prog s.pc).getD 0)).reverse
  | .inc => []
  | .inp => []
  | .dec => []
  | .out => []
  | .left => []
  | .right => []
  | .nop _ => []

/-- What stands on `prog_addr` during one transition, in order: "index of the program character being read
(fetch, scan or validation)" (R22). An engine with a jump table scans nothing (R144);
notes/assumptions/21.md. -/
def State.progReads (s : State) (m : HostMove) : List Nat :=
  match m with
  | .command (.reset text) => validateReads [] text 0
  | .command .start => []
  | .command (.deliver _) => []
  | .engine =>
    if s.status = .running then
      match fetch s with
      | some c => s.pc :: scanReads (decode c) (Memory.read s.tape (cellAddress s)) s
      | none => []
    else []

/-- The input signals of one cycle, and whether an engine step completes in it, which no rule fixes
(R5, R179(c)). `text` is what `prog_data` and `prog_len` present to a `Reset`. -/
structure Pins where
  rst     : Bool
  text    : Text
  start   : Bool
  inValid : Bool
  inData  : Byte
  engine  : Bool
  deriving DecidableEq, Repr

/-- The moves of one cycle that begins in status `st`: `rst` wins over everything; else each command
raised is judged against `st`, and so is the engine step (R179(c)). The order in which the events of
one cycle stand in the trace is a DESIGN CHOICE, notes/assumptions/12.md. How many `Reset`s a `rst` held
over several cycles is, no rule says (R22 'while asserted', 70_reset_and_hazards.md R206 'when `rst`
rises'); here one in each cycle: DESIGN CHOICE, notes/assumptions/22.md. -/
def cycleMoves (p : Pins) (st : Status) : List HostMove :=
  if p.rst then [.command (.reset p.text)]
  else
    (if p.start then [.command .start] else []) ++
    (if p.inValid then [.command (.deliver p.inData)] else []) ++
    (if p.engine ∧ st = .running then [.engine] else [])

/-- One cycle. -/
def cycle (p : Pins) (s : State) : Host.Outcome State Fault Refusal :=
  runMoves (cycleMoves p s.status) s

/-- The events of a trace, in order. -/
def eventsOf (xs : List TraceItem) : List Event :=
  xs.filterMap fun x =>
    match x with
    | .event e => some e
    | .command _ => none

/-- The events between two states of one run. -/
def newEvents (before after : State) : List Event :=
  eventsOf (after.trace.drop before.trace.length)

/-- The output pulses of a cycle: `out_data` while `out_valid` is 1, and `misuse`. -/
structure Pulses where
  out    : Option Byte
  misuse : Bool
  deriving DecidableEq, Repr

/-- The pulses of a cycle from `before` to `after`: two rejected commands give one `misuse` pulse
(R179(c)). -/
def pulses (before after : State) : Pulses where
  out := (newEvents before after).findSome? fun e =>
    match e with
    | .out v => some v
    | .awaitBegin => none
    | .awaitEnd => none
    | .halt => none
    | .fatal _ => none
    | .misuse => none
  misuse := (newEvents before after).contains .misuse

end Sys2Proof.Machine
end

