-- ==== Sys2Proof/Safety.lean ====
section
/-! DEFINITION. What counts as a safe run, and the notions claims are stated in. -/

namespace Sys2Proof.Machine

/-- The state a step goes on in, if it goes on. -/
def nextState : Host.Outcome State Fault Refusal → Option State
  | .next s => some s
  | .fault _ => none
  | .refused _ => none

/-- The invariants 10_state.md R21 lists, items 1 to 8, and the canonical form of the tape. -/
structure EngineInv (s : State) : Prop where
  /-- Item 1. -/
  pc_le : s.pc ≤ s.prog.length
  /-- Item 2, "in every status including `Fatal`". -/
  dp_lt : s.dp < Config.tapeLen
  /-- Item 3. -/
  validated : s.status ≠ .fatal ∨ s.err ≠ some .structuralError → wellFormed s.prog = true
  /-- Item 4. -/
  halted_at_end : s.status = .halted → s.pc = s.prog.length
  /-- Item 5. -/
  awaiting_at_input : s.status = .awaitingInput → s.prog[s.pc]? = some codeInp
  /-- Item 6, underflow. -/
  underflow_at_left : s.status = .fatal → s.err = some .tapeUnderflow →
    s.prog[s.pc]? = some codeLeft ∧ s.dp = 0
  /-- Item 6, overflow. -/
  overflow_at_right : s.status = .fatal → s.err = some .tapeOverflow →
    s.prog[s.pc]? = some codeRight ∧ s.dp = Config.tapeLen - 1
  /-- Item 7. -/
  err_none_iff : s.err = none ↔ s.status ≠ .fatal
  /-- Item 8. -/
  ready_is_fresh : s.status = .ready → s.pc = 0 ∧ s.dp = 0 ∧ ∀ a, Memory.read s.tape a = 0x00
  /-- The model's own: the tape is in its canonical form. -/
  tape_wf : Memory.wf s.tape = true

/-- Is the next move the host plans a `Reset`? -/
def State.resetNext (s : State) : Bool :=
  match s.host with
  | .command (.reset _) :: _ => true
  | _ => false

/-- Does the next step belong to the engine (no plan left, or the plan lets it go on)? -/
def State.engineNext (s : State) : Bool :=
  match s.host with
  | [] => true
  | .engine :: _ => true
  | .command _ :: _ => false

/-- The status and error kind after one more entry of a trace, or `none` where the machine emits no such
entry there: the life of an engine read from its trace alone (10_state.md R15, R23, 43_io.md R125,
40_execution_loop.md R88). -/
def lifeStep (x : Status × Option FatalKind) : TraceItem → Option (Status × Option FatalKind)
  | .command (.reset _) => some (.ready, none)
  | .command .start => if x.1 = .ready then some (.running, none) else some x
  | .command (.deliver _) => some x
  | .event .misuse => some x
  | .event (.out _) => if x.1 = .running then some x else none
  | .event .awaitBegin => if x.1 = .running then some (.awaitingInput, none) else none
  | .event .awaitEnd => if x.1 = .awaitingInput then some (.running, none) else none
  | .event .halt => if x.1 = .running then some (.halted, none) else none
  | .event (.fatal .structuralError) =>
    if x.1 = .ready then some (.fatal, some .structuralError) else none
  | .event (.fatal .tapeUnderflow) =>
    if x.1 = .running then some (.fatal, some .tapeUnderflow) else none
  | .event (.fatal .tapeOverflow) =>
    if x.1 = .running then some (.fatal, some .tapeOverflow) else none

/-- The status and error kind a whole trace leads to from a fresh instance. -/
def lifeOf (xs : List TraceItem) : Option (Status × Option FatalKind) :=
  xs.foldlM lifeStep (.ready, none)

/-- Run a list of instructions on a state, one meaning after the other. -/
def execAll : List Instr → State → Host.Outcome State Fault Refusal
  | [], s => .next s
  | i :: is, s =>
    match exec i s with
    | .next t => execAll is t
    | .fault f => .fault f
    | .refused r => .refused r

/-- A host that starts nothing and answers each request with the next byte it has: `fuel` transitions of
the engine or deliveries, stopping where the engine waits for a byte the host does not have
(43_io.md R126). -/
def drive : Nat → List Byte → State → Host.Outcome State Fault Refusal
  | 0, _, s => .next s
  | fuel + 1, bytes, s =>
    if s.status = .awaitingInput then
      match bytes with
      | [] => .next s
      | b :: rest =>
        match issue (.deliver b) s with
        | .next t => drive fuel rest t
        | .fault f => .fault f
        | .refused r => .refused r
    else
      match engineStep s with
      | .next t => drive fuel bytes t
      | .fault f => .fault f
      | .refused r => .refused r

/-- A fresh, started instance of a text: `Reset(text)`, then `Start` (70_reset_and_hazards.md R204). A
text that is rejected gives the rejected instance and the `Misuse` of the `Start`. -/
def freshRun (text : Text) : State :=
  startCommand ((resetCommand text (State.reset.note (.command (.reset text)))).note (.command .start))

/-- Is the character one of the eight of 30_encoding.md R62? -/
def isInstructionCharacter (c : Byte) : Bool :=
  match decode c with
  | .nop _ => false
  | .inc => true
  | .inp => true
  | .dec => true
  | .out => true
  | .left => true
  | .right => true
  | .jz => true
  | .jnz => true

/-- A text with every non-instruction character removed (45_nop.md R161). -/
def eraseNops (text : Text) : Text := text.filter isInstructionCharacter

/-- `d(k)` of 70_reset_and_hazards.md R202 on a stretch of text: the `[` minus the `]` in it. -/
def bracketDepth (text : Text) : Int := (text.count codeJz : Int) - (text.count codeJnz : Int)

/-- The characters at addresses `lo .. hi`, both included. -/
def stretch (text : Text) (lo hi : Nat) : Text := (text.take (hi + 1)).drop lo

end Sys2Proof.Machine
end

