-- ==== Sys2Proof/Certificates/Slice0/Obligations.lean ====
section
/-! DEFINITION. The statements for the provers. Rule numbers are those of spec/; "log n" is
notes/assumptions/n.md. -/

open Sys2Proof Sys2Proof.Machine

/-! ### Encoding -/

/-- R62, R63: the words of the eight instructions, written out bit by bit, and some of the others. The
codes are ASCII, which the spec marks as general knowledge (G1). -/
def Obligations.DecodeReadsOpcodeCharacters : Prop :=
  decode 0b00101011 = .inc ∧ decode 0b00101100 = .inp ∧ decode 0b00101101 = .dec ∧
  decode 0b00101110 = .out ∧ decode 0b00111100 = .left ∧ decode 0b00111110 = .right ∧
  decode 0b01011011 = .jz ∧ decode 0b01011101 = .jnz ∧
  decode 0b00000000 = .nop 0x00 ∧ decode 0b00111101 = .nop 0x3D ∧ decode 0b01011100 = .nop 0x5C ∧
  decode 0b00101010 = .nop 0x2A ∧ decode 0b11111111 = .nop 0xFF

/-- R63, R65: 248 codes are no-ops, and no code hits two exact rows. -/
def Obligations.EveryOtherCodeIsNop : Prop :=
  ((List.range 256).map (BitVec.ofNat 8)).countP (fun c => decode c == .nop c) = 248 ∧
  ∀ c : Byte, (opcodeRows.filter (fun r => r.hits c)).length ≤ 1 ∧
    (decode c = .nop c ↔ ∀ r ∈ opcodeRows, r.hits c = false)

/-- R60, R62, R63, R65: decoding is onto the well-formed instructions, one to one, and reads one character
off a text. -/
def Obligations.DecodeEncodeAgree : Prop :=
  (∀ (i : Instr) (rest : List Byte), i.wellFormed = true →
    decodeText (encode i :: rest) = .ok (i, rest)) ∧
  ∀ c : Byte, (decode c).wellFormed = true ∧ encode (decode c) = c

/-- R60, R68: a text is its instructions, address for address. -/
def Obligations.ProgramTextRoundTrip : Prop :=
  (∀ is : List Instr, (∀ i ∈ is, i.wellFormed = true) → decodeProgram (encodeProgram is) = is) ∧
  ∀ text : List Byte, encodeProgram (decodeProgram text) = text ∧
    (decodeProgram text).length = text.length ∧
    ∀ a : Nat, (decodeProgram text)[a]? = text[a]?.map decode

/-! ### The loop -/

/-- R83, R54: in `Running` with `PC < L` a step is the meaning of the decoded character, with nothing
around it; where the host's plan lets the engine go on, that entry of the plan is used up. -/
def Obligations.StepRunsDecodedInstruction : Prop :=
  ∀ (s : State) (c : Byte), s.status = .running → s.prog[s.pc]? = some c →
    (s.host = [] → step s = exec (decode c) s) ∧
    ∀ ms : List HostMove, s.host = .engine :: ms → step s = exec (decode c) { s with host := ms }

/-- R82: the halt step, and the empty program halting at the first step after `Start`. -/
def Obligations.HaltStepAtEndOfText : Prop :=
  (∀ s : State, s.status = .running → s.pc = s.prog.length →
    engineStep s =
      .next { s with status := .halted, trace := s.trace ++ [.event .halt] }) ∧
  ∃ t, engineStep (freshRun []) = .next t ∧ t.status = .halted ∧ t.pc = 0 ∧
    eventsOf t.trace = [.halt]

/-- R80, R85 in the form of log 2 and log 3, the model's choices: a command the host plans next is issued
now, before any step of the engine, against the status then current; outside `Running` the engine has
no step, and a step with no plan then leaves the state as it is. -/
def Obligations.PlannedCommandOrHold : Prop :=
  (∀ (s : State) (c : Command) (ms : List HostMove), s.host = .command c :: ms →
    step s = issue c { s with host := ms }) ∧
  ∀ s : State, s.status ≠ .running →
    engineStep s = .next s ∧ (s.host = [] → step s = .next s)

/-! ### The instructions -/

/-- R110; the premise on the tape is its canonical form, log 11. -/
def Obligations.IncAddsOneModulo256 : Prop :=
  decode 0x2B = .inc ∧
  ∀ s : State, s.dp < 30000 → Memory.wf s.tape = true →
    ∃ t, exec .inc s = .next t ∧
      uval (Memory.read t.tape s.dp) = (uval (Memory.read s.tape s.dp) + 1) % 256 ∧
      (∀ a, a ≠ s.dp → Memory.read t.tape a = Memory.read s.tape a) ∧
      t = { s with tape := t.tape, pc := s.pc + 1 }

/-- R111; the premise on the tape is its canonical form, log 11. -/
def Obligations.DecSubtractsOneModulo256 : Prop :=
  decode 0x2D = .dec ∧
  ∀ s : State, s.dp < 30000 → Memory.wf s.tape = true →
    ∃ t, exec .dec s = .next t ∧
      uval (Memory.read t.tape s.dp) = (uval (Memory.read s.tape s.dp) + 255) % 256 ∧
      (∀ a, a ≠ s.dp → Memory.read t.tape a = Memory.read s.tape a) ∧
      t = { s with tape := t.tape, pc := s.pc + 1 }

/-- R120: one `Out` of the eight bits of the cell, nothing else but `PC`. -/
def Obligations.OutEmitsCurrentCell : Prop :=
  decode 0x2E = .out ∧
  ∀ s : State, s.dp < 30000 →
    exec .out s =
      .next { s with
        trace := s.trace ++ [.event (.out (Memory.read s.tape s.dp))]
        pc := s.pc + 1 }

/-- R121: the request half of `,`. -/
def Obligations.InSuspendsWithoutAdvancing : Prop :=
  decode 0x2C = .inp ∧
  ∀ s : State,
    exec .inp s =
      .next { s with trace := s.trace ++ [.event .awaitBegin], status := .awaitingInput }

/-- R100. That a faulting `<` keeps `PC` and `DP` is the spec's own decision D10 (R176), log 10. -/
def Obligations.LeftMovesOrUnderflows : Prop :=
  decode 0x3C = .left ∧
  ∀ s : State,
    (s.dp ≠ 0 → exec .left s = .next { s with dp := s.dp - 1, pc := s.pc + 1 }) ∧
    (s.dp = 0 →
      exec .left s =
        .next { s with
          status := .fatal
          err := some .tapeUnderflow
          trace := s.trace ++ [.event (.fatal .tapeUnderflow)] })

/-- R101. That a faulting `>` keeps `PC` and `DP` is the spec's own decision D10 (R176), log 10. -/
def Obligations.RightMovesOrOverflows : Prop :=
  decode 0x3E = .right ∧
  ∀ s : State,
    (s.dp + 1 < 30000 → exec .right s = .next { s with dp := s.dp + 1, pc := s.pc + 1 }) ∧
    (30000 ≤ s.dp + 1 →
      exec .right s =
        .next { s with
          status := .fatal
          err := some .tapeOverflow
          trace := s.trace ++ [.event (.fatal .tapeOverflow)] })

/-- R140, under its precondition that the text is validated and holds a `[` at `PC`. -/
def Obligations.JzFallsThroughOrJumpsPast : Prop :=
  decode 0x5B = .jz ∧
  ∀ s : State, s.dp < 30000 → s.prog[s.pc]? = some codeJz → wellFormed s.prog = true →
    (Memory.read s.tape s.dp ≠ 0x00 → exec .jz s = .next { s with pc := s.pc + 1 }) ∧
    (Memory.read s.tape s.dp = 0x00 →
      ∃ j, matchFwd s.prog s.pc = some j ∧ s.prog[j]? = some codeJnz ∧ s.pc < j ∧
        exec .jz s = .next { s with pc := j + 1 })

/-- R141, under its precondition that the text is validated and holds a `]` at `PC`. -/
def Obligations.JnzFallsThroughOrJumpsBack : Prop :=
  decode 0x5D = .jnz ∧
  ∀ s : State, s.dp < 30000 → s.prog[s.pc]? = some codeJnz → wellFormed s.prog = true →
    (Memory.read s.tape s.dp = 0x00 → exec .jnz s = .next { s with pc := s.pc + 1 }) ∧
    (Memory.read s.tape s.dp ≠ 0x00 →
      ∃ i, matchBwd s.prog s.pc = some i ∧ s.prog[i]? = some codeJz ∧ i < s.pc ∧
        exec .jnz s = .next { s with pc := i + 1 })

/-- R160: every character that is none of the eight advances `PC` and does nothing else. -/
def Obligations.NopOnlyAdvances : Prop :=
  ∀ (c : Byte) (s : State),
    c ∉ [0x2B, 0x2C, 0x2D, 0x2E, 0x3C, 0x3E, 0x5B, 0x5D] →
      exec (decode c) s = .next { s with pc := s.pc + 1 }

/-- The frame of every instruction (R17, R18, R43, R84): what it leaves when it goes on. `cellAddress` is
the address the meanings access the tape at. -/
def Obligations.InstructionFrames : Prop :=
  ∀ (i : Instr) (s t : State), Memory.wf s.tape = true → exec i s = .next t →
    t.prog = s.prog ∧ t.host = s.host ∧
    (i ≠ .left → i ≠ .right → t.dp = s.dp) ∧
    (∀ a, ¬ ((i = .inc ∨ i = .dec) ∧ a = cellAddress s) →
      Memory.read t.tape a = Memory.read s.tape a) ∧
    (i ≠ .inp → ¬ (i = .left ∧ s.dp = 0) → ¬ (i = .right ∧ 30000 ≤ s.dp + 1) →
      t.status = s.status ∧ t.err = s.err ∧ (i ≠ .out → t.trace = s.trace)) ∧
    (i = .inp → t.err = s.err)

/-- R48, R145, log 7 and log 8, the model's choices: exactly where a meaning stops, and under which name:
at a `DP` that is no address of the tape, and at a taken bracket whose scan leaves the text. Nothing is
refused. -/
def Obligations.MeaningsStopOnlyOutOfRange : Prop :=
  ∀ (i : Instr) (s : State),
    (∀ r, exec i s ≠ .refused r) ∧
    ∀ f, exec i s = .fault f ↔
      (f = .tapeAddressOutside ∧ 30000 ≤ s.dp ∧
        (i = .inc ∨ i = .dec ∨ i = .out ∨ i = .jz ∨ i = .jnz)) ∨
      (f = .scanLeftProgram ∧ s.dp < 30000 ∧
        ((i = .jz ∧ Memory.read s.tape s.dp = 0x00 ∧ matchFwd s.prog s.pc = none) ∨
         (i = .jnz ∧ Memory.read s.tape s.dp ≠ 0x00 ∧ matchBwd s.prog s.pc = none)))

/-! ### The commands -/

/-- R81. -/
def Obligations.StartRunsReadyEngine : Prop :=
  ∀ s : State,
    (s.status = .ready →
      issue .start s =
        .next { s with status := .running, trace := s.trace ++ [.command .start] }) ∧
    (s.status ≠ .ready →
      issue .start s =
        .next { s with trace := s.trace ++ [.command .start, .event .misuse] })

/-- R122: the completion half of `,`. That the trace records the command, before the event (R23), is log
4, and the premise on the tape is its canonical form, log 11: both are the model's choice. -/
def Obligations.DeliverCompletesInput : Prop :=
  ∀ (s : State) (b : Byte), s.status = .awaitingInput → s.dp < 30000 → Memory.wf s.tape = true →
    ∃ t, issue (.deliver b) s = .next t ∧
      Memory.read t.tape s.dp = b ∧
      (∀ a, a ≠ s.dp → Memory.read t.tape a = Memory.read s.tape a) ∧
      t = { s with
        tape := t.tape
        pc := s.pc + 1
        status := .running
        trace := s.trace ++ [.command (.deliver b), .event .awaitEnd] }

/-- R123, R174: a misplaced `Start` or `Deliver` emits one `Misuse` and changes nothing; `Reset` is never
misuse. -/
def Obligations.MisplacedCommandIsRejected : Prop :=
  (∀ s : State, s.status ≠ .ready →
    issue .start s = .next { s with trace := s.trace ++ [.command .start, .event .misuse] }) ∧
  (∀ (s : State) (b : Byte), s.status ≠ .awaitingInput →
    issue (.deliver b) s =
      .next { s with trace := s.trace ++ [.command (.deliver b), .event .misuse] }) ∧
  ∀ (s : State) (text : Text), ∃ t, issue (.reset text) s = .next t ∧ .misuse ∉ newEvents s t

/-- R175: what the fault entry writes. -/
def Obligations.FaultEntryWritesStatusAndErr : Prop :=
  ∀ (s : State) (k : FatalKind),
    s.raiseFatal k =
      { s with
        status := .fatal
        err := some k
        trace := s.trace ++ [.event (.fatal k)] }

/-- R171: `Reset` raises `StructuralError` exactly when the text is not well formed. -/
def Obligations.ResetRaisesStructuralErrorExactly : Prop :=
  ∀ (s : State) (text : Text), ∃ t, issue (.reset text) s = .next t ∧
    (wellFormed text = false ↔ t.status = .fatal ∧ t.err = some .structuralError ∧
      newEvents s t = [.fatal .structuralError]) ∧
    (wellFormed text = true ↔ t.status = .ready ∧ t.err = none ∧ newEvents s t = [])

/-- R20, R200, R206: the whole state after `Reset`, from any state. The values of `TAPE`, `PC` and `DP` of
a rejected instance are the spec's own decision D11; that the trace goes on is log 4. -/
def Obligations.ResetSetsEveryItem : Prop :=
  ∀ (s : State) (text : Text),
    issue (.reset text) s =
      .next {
        prog := text
        tape := []
        pc := 0
        dp := 0
        status := if wellFormed text then .ready else .fatal
        err := if wellFormed text then none else some .structuralError
        trace := s.trace ++ .command (.reset text) ::
          (if wellFormed text then [] else [.event (.fatal .structuralError)])
        host := s.host } ∧
    ∀ a, Memory.read ([] : Memory) a = 0x00

/-- R204, R20, R47: after `Reset` and `Start` on a well-formed text the engine runs from address 0 over a
clear tape. -/
def Obligations.FreshRunStartsAtZero : Prop :=
  ∀ text : Text, wellFormed text = true →
    (freshRun text).status = .running ∧ (freshRun text).err = none ∧ (freshRun text).prog = text ∧
    (freshRun text).pc = 0 ∧ (freshRun text).dp = 0 ∧
    (∀ a, Memory.read (freshRun text).tape a = 0x00) ∧ eventsOf (freshRun text).trace = [] ∧
    EngineInv (freshRun text)

/-! ### Whole-machine rules -/

/-- R172. -/
def Obligations.UnderflowOnlyByLeftAtZero : Prop :=
  ∀ s t : State, step s = .next t →
    (.fatal .tapeUnderflow ∈ newEvents s t ↔
      s.engineNext = true ∧ s.status = .running ∧ s.prog[s.pc]? = some codeLeft ∧ s.dp = 0)

/-- R173, over the values `DP` takes (R14). -/
def Obligations.OverflowOnlyByRightAtLastCell : Prop :=
  ∀ s t : State, s.dp < 30000 → step s = .next t →
    (.fatal .tapeOverflow ∈ newEvents s t ↔
      s.engineNext = true ∧ s.status = .running ∧ s.prog[s.pc]? = some codeRight ∧ s.dp = 29999)

/-- R177: in `Fatal` nothing but `Reset` changes anything, and a command is answered by `Misuse`. That a
step on the engine's turn answers a next state is the form of a hold, log 3, and that a turn or a command
is an entry of a plan is log 2: both are the model's choice, where R177 says that the engine takes no
step. -/
def Obligations.FatalIsAbsorbing : Prop :=
  ∀ s : State, s.status = .fatal → s.resetNext = false →
    ∃ t, step s = .next t ∧
      t.status = .fatal ∧ t.err = s.err ∧ t.prog = s.prog ∧ t.tape = s.tape ∧ t.pc = s.pc ∧
      t.dp = s.dp ∧
      (s.engineNext = true → newEvents s t = []) ∧
      (s.engineNext = false → newEvents s t = [.misuse])

/-- R15, R80: `STATUS` changes along the edges of the lifecycle graph only, each by its own cause. -/
def Obligations.StatusFollowsLifecycleGraph : Prop :=
  ∀ s t : State, step s = .next t →
    (s.resetNext = true → t.status = .ready ∨ t.status = .fatal) ∧
    (s.resetNext = false → t.status ≠ s.status →
      (s.status = .ready ∧ t.status = .running ∧ ∃ ms, s.host = .command .start :: ms) ∨
      (s.status = .running ∧ t.status = .awaitingInput ∧ s.engineNext = true ∧
        s.prog[s.pc]? = some codeInp) ∨
      (s.status = .awaitingInput ∧ t.status = .running ∧
        ∃ b ms, s.host = .command (.deliver b) :: ms) ∨
      (s.status = .running ∧ t.status = .halted ∧ s.engineNext = true ∧
        s.pc = s.prog.length) ∨
      (s.status = .running ∧ t.status = .fatal ∧ s.engineNext = true ∧
        (s.prog[s.pc]? = some codeLeft ∨ s.prog[s.pc]? = some codeRight)))

/-- R11, R52: only `Reset` changes the text. -/
def Obligations.ProgramFixedBetweenResets : Prop :=
  ∀ s t : State, s.resetNext = false → step s = .next t → t.prog = s.prog

/-- R14, R102(a): between resets only a running `<` or `>` changes `DP`, and by exactly one. -/
def Obligations.DataPointerMovedOnlyByPointerInstructions : Prop :=
  ∀ s t : State, s.resetNext = false → step s = .next t → t.dp ≠ s.dp →
    s.engineNext = true ∧ s.status = .running ∧
    ((s.prog[s.pc]? = some codeLeft ∧ t.dp + 1 = s.dp) ∨
     (s.prog[s.pc]? = some codeRight ∧ t.dp = s.dp + 1))

/-- R12, R41, R55: between resets a cell changes only at address `DP`, by a running `+` or `-`, or by an
accepted `Deliver` that stores its byte. -/
def Obligations.TapeWrittenOnlyAtDataPointer : Prop :=
  ∀ (s t : State) (a : Nat), Memory.wf s.tape = true → s.resetNext = false → step s = .next t →
    Memory.read t.tape a ≠ Memory.read s.tape a →
    a = s.dp ∧
    ((s.engineNext = true ∧ s.status = .running ∧
        (s.prog[s.pc]? = some codeInc ∨ s.prog[s.pc]? = some codeDec)) ∨
     (s.status = .awaitingInput ∧
        ∃ b ms, s.host = .command (.deliver b) :: ms ∧ Memory.read t.tape a = b))

/-- R23, R120, R127: one `Out` with the value of the current cell for each executed `.`, and none from
anything else. -/
def Obligations.OutExactlyOncePerOutInstruction : Prop :=
  ∀ s t : State, step s = .next t →
    ((s.engineNext = true ∧ s.status = .running ∧ s.prog[s.pc]? = some codeOut) →
      newEvents s t = [.out (Memory.read s.tape s.dp)]) ∧
    (¬ (s.engineNext = true ∧ s.status = .running ∧ s.prog[s.pc]? = some codeOut) →
      ∀ v, .out v ∉ newEvents s t)

/-- R206, R23: events already emitted stay emitted; a step appends at most a command and one event. -/
def Obligations.TraceOnlyGrows : Prop :=
  ∀ s t : State, step s = .next t →
    (∃ xs, t.trace = s.trace ++ xs ∧ xs.length ≤ 2) ∧ (newEvents s t).length ≤ 1

/-- R22, R125: the edges of the level `awaiting` are the notifier's two events, but for a `Reset`, which
drops it without one. -/
def Obligations.AwaitingEdgesAreNotifierEvents : Prop :=
  ∀ s t : State, step s = .next t →
    ((s.awaiting = false ∧ t.awaiting = true) ↔ .awaitBegin ∈ newEvents s t) ∧
    ((s.awaiting = true ∧ t.awaiting = false ∧ s.resetNext = false) ↔ .awaitEnd ∈ newEvents s t)

/-! ### Invariants -/

/-- R21 holds after reset. -/
def Obligations.ResetMeetsEngineInvariant : Prop :=
  EngineInv State.reset

/-- R21: every step keeps the invariants of the spec, whatever the host plans. -/
def Obligations.EveryStepKeepsEngineInvariant : Prop :=
  ∀ s t : State, EngineInv s → step s = .next t → EngineInv t

/-- R48, R54, R65, R87, R145: where the invariants hold no step stops: no tape access, fetch or bracket
scan leaves its range. -/
def Obligations.InvariantStatesNeverStop : Prop :=
  ∀ s : State, EngineInv s → ∃ t, step s = .next t

/-- R15, R23, R88, R125: the trace alone determines `STATUS` and `ERR`, and every event stands where the
life of an engine allows it; every step keeps that. The fold and the commands in the trace are the
model's, log 4; `Misuse` may stand between the notifier's two events, log 13. -/
def Obligations.EveryStepKeepsTraceLifecycle : Prop :=
  lifeOf State.reset.trace = some (State.reset.status, State.reset.err) ∧
  ∀ s t : State, lifeOf s.trace = some (s.status, s.err) → step s = .next t →
    lifeOf t.trace = some (t.status, t.err)

/-- R4, R13, R14: the two registers fit the widths the spec gives them. -/
def Obligations.PointersFitTheirRegisters : Prop :=
  ∀ s : State, EngineInv s → s.dp < 2 ^ Config.dpW ∧ s.pc < 2 ^ Config.pcW s.prog.length

/-- The model's form of the tape (log 11): equal cells are equal data. -/
def Obligations.CanonicalTapesAreEqualData : Prop :=
  ∀ m m' : Memory, Memory.wf m = true → Memory.wf m' = true →
    (∀ a, Memory.read m a = Memory.read m' a) → m = m'

/-! ### Arithmetic -/

/-- R112(c), R113: the two operations and the zero test come out the same under both readings of a cell. -/
def Obligations.ArithmeticIgnoresSignedness : Prop :=
  ∀ v : Byte,
    uval (cellPlusOne v) = (uval v + 1) % 256 ∧ sval (cellPlusOne v) = (sval v + 1).bmod 256 ∧
    uval (cellMinusOne v) = (uval v + 255) % 256 ∧ sval (cellMinusOne v) = (sval v - 1).bmod 256 ∧
    (cellIsZero v = true ↔ uval v = 0) ∧ (cellIsZero v = true ↔ sval v = 0) ∧
    cellMinusOne (cellPlusOne v) = v ∧ cellPlusOne (cellMinusOne v) = v

/-- R112(e): `n` applications of `+` add `n mod 256`, those of `-` take it away, and 256 of either leave
the whole tape as it was. -/
def Obligations.RepeatedArithmeticIsModular : Prop :=
  ∀ (n : Nat) (s : State), s.dp < 30000 → Memory.wf s.tape = true →
    (∃ t, execAll (List.replicate n .inc) s = .next t ∧
      uval (Memory.read t.tape s.dp) = (uval (Memory.read s.tape s.dp) + n) % 256 ∧
      t = { s with tape := t.tape, pc := s.pc + n } ∧ (n = 256 → t.tape = s.tape)) ∧
    (∃ t, execAll (List.replicate n .dec) s = .next t ∧
      uval (Memory.read t.tape s.dp) = (uval (Memory.read s.tape s.dp) + 255 * n) % 256 ∧
      t = { s with tape := t.tape, pc := s.pc + n } ∧ (n = 256 → t.tape = s.tape))

/-- R102(b), (c): after a fault-free run of pointer instructions `DP` is where it was plus the `>` minus
the `<`, and it stayed on the tape at every prefix. -/
def Obligations.PointerMovesAddUp : Prop :=
  ∀ (is : List Instr) (s t : State), (∀ i ∈ is, i = .left ∨ i = .right) → s.dp < 30000 →
    s.status ≠ .fatal → execAll is s = .next t → t.status ≠ .fatal →
    t = { s with dp := t.dp, pc := s.pc + is.length } ∧
    ∀ k, k ≤ is.length →
      0 ≤ (s.dp : Int) + (is.take k).count .right - (is.take k).count .left ∧
      (s.dp : Int) + (is.take k).count .right - (is.take k).count .left < 30000 ∧
      (k = is.length → (t.dp : Int) = s.dp + (is.take k).count .right - (is.take k).count .left)

/-! ### Brackets -/

/-- R202: the validation without a stack. -/
def Obligations.ValidationIsDepthCount : Prop :=
  ∀ text : Text, wellFormed text = true ↔
    (∀ k, k ≤ text.length → 0 ≤ bracketDepth (text.take k)) ∧ bracketDepth text = 0

/-- R142: the forward scan finds the first address at which the depth is back to 0. -/
def Obligations.MatchFwdIsFirstReturnToZero : Prop :=
  ∀ (text : Text) (i j : Nat), text[i]? = some codeJz →
    (matchFwd text i = some j ↔
      i < j ∧ j < text.length ∧ bracketDepth (stretch text i j) = 0 ∧
      ∀ k, i ≤ k → k < j → 0 < bracketDepth (stretch text i k))

/-- R143: the backward scan finds the last address before from which the depth is back to 0. -/
def Obligations.MatchBwdIsFirstReturnToZero : Prop :=
  ∀ (text : Text) (i j : Nat), text[j]? = some codeJnz →
    (matchBwd text j = some i ↔
      i < j ∧ bracketDepth (stretch text i j) = 0 ∧
      ∀ k, i < k → k ≤ j → bracketDepth (stretch text k j) < 0)

/-- R145(a) to (e): on a validated text both scans end on a bracket of the other kind, in range, and are
inverse to each other. -/
def Obligations.ResolverPairsBrackets : Prop :=
  ∀ text : Text, wellFormed text = true →
    (∀ i, text[i]? = some codeJz →
      ∃ j, matchFwd text i = some j ∧ i < j ∧ j < text.length ∧ text[j]? = some codeJnz ∧
        matchBwd text j = some i) ∧
    (∀ j, text[j]? = some codeJnz →
      ∃ i, matchBwd text j = some i ∧ i < j ∧ text[i]? = some codeJz ∧
        matchFwd text i = some j)

/-- R145(f), (g): pairs nest and never cross, and the counter of a scan fits `PC_W` bits. -/
def Obligations.BracketPairsNest : Prop :=
  ∀ (text : Text) (i i' j j' : Nat),
    text[i]? = some codeJz → text[i']? = some codeJz → i < i' →
    matchFwd text i = some j → matchFwd text i' = some j' →
    (j < i' ∨ j' < j) ∧
    ∀ k, i ≤ k → k < j →
      0 < bracketDepth (stretch text i k) ∧
      bracketDepth (stretch text i k) < 2 ^ Config.pcW text.length

/-- R144: the table built during validation holds exactly the pairs both scans give. -/
def Obligations.JumpTableEqualsScans : Prop :=
  ∀ text : Text, wellFormed text = true → ∀ i j : Nat,
    ((i, j) ∈ jumpTable text ↔ text[i]? = some codeJz ∧ matchFwd text i = some j) ∧
    ((i, j) ∈ jumpTable text ↔ text[j]? = some codeJnz ∧ matchBwd text j = some i)

/-! ### Erasing the no-ops -/

/-- R161, its first sentence: erasing changes no validation. -/
def Obligations.ErasingNopsKeepsValidation : Prop :=
  ∀ text : Text, wellFormed (eraseNops text) = wellFormed text

/-- R161: whatever a text does under given bytes, the erased text does too, in no more transitions. -/
def Obligations.ErasedTextSimulatesText : Prop :=
  ∀ (text : Text) (bytes : List Byte) (n : Nat) (t : State),
    drive n bytes (freshRun text) = .next t →
    ∃ n' t', n' ≤ n ∧ drive n' bytes (freshRun (eraseNops text)) = .next t' ∧
      eventsOf t'.trace = eventsOf t.trace ∧ t'.tape = t.tape ∧ t'.dp = t.dp ∧
      t'.status = t.status ∧ t'.err = t.err

/-- R161: whatever the erased text does under given bytes, the text does too. -/
def Obligations.TextSimulatesErasedText : Prop :=
  ∀ (text : Text) (bytes : List Byte) (n' : Nat) (t' : State),
    drive n' bytes (freshRun (eraseNops text)) = .next t' →
    ∃ n t, n' ≤ n ∧ drive n bytes (freshRun text) = .next t ∧
      eventsOf t'.trace = eventsOf t.trace ∧ t'.tape = t.tape ∧ t'.dp = t.dp ∧
      t'.status = t.status ∧ t'.err = t.err

/-! ### Operations, signals, systems, loading -/

/-- R89: iterating the step of the machine with no plan of the host is the run operation's loop, which
returns at the first state that is not `Running`. -/
def Obligations.RunLoopIsIteratedStep : Prop :=
  ∀ (n : Nat) (s : State), s.host = [] →
    (Host.Core.run Sys2Proof.core n s : Host.Outcome State Fault Refusal) = runEngine n s

/-- R15, R16, R22: the codes are distinct and the unused codes of `STATUS` are never shown. -/
def Obligations.StatusAndErrCodes : Prop :=
  (∀ a b : Status, a.code = b.code → a = b) ∧
  (∀ k k' : Option FatalKind, errCode k = errCode k' → k = k') ∧
  (∀ a : Status, a.code ≠ 0b101 ∧ a.code ≠ 0b110 ∧ a.code ≠ 0b111) ∧
  (∀ s : State, s.levels.awaiting = true ↔ s.levels.status = 0b010)

/-- R179(c), D14: judging `start` and `in_valid` one after the other, in either order, gives the same
machine, since no status accepts both. -/
def Obligations.SimultaneousCommandsAreOrderIndependent : Prop :=
  ∀ (s : State) (b : Byte), s.dp < 30000 →
    ∃ t u, runMoves [.command .start, .command (.deliver b)] s = .next t ∧
      runMoves [.command (.deliver b), .command .start] s = .next u ∧
      { t with trace := [] } = { u with trace := [] } ∧
      (newEvents s t).count .misuse = (newEvents s u).count .misuse ∧
      ((newEvents s t).count .misuse = 1 ↔ s.status = .ready ∨ s.status = .awaitingInput)

/-- R179(c): `rst` wins over everything in its cycle; both commands rejected in one cycle give two
`Misuse` events and one pulse of the wire. That a cycle with `rst` is a `Reset` whatever the cycle before
was is log 22, and the order of the entries of one cycle log 12: the model's choices. -/
def Obligations.SignalPriorityInOneCycle : Prop :=
  ∀ (p : Pins) (s : State),
    (p.rst = true → cycle p s = issue (.reset p.text) s) ∧
    (p.rst = false → p.start = true → p.inValid = true → p.engine = false →
      s.status ≠ .ready → s.status ≠ .awaitingInput →
      ∃ t, cycle p s = .next t ∧ newEvents s t = [.misuse, .misuse] ∧
        pulses s t = { out := none, misuse := true } ∧ { t with trace := s.trace } = s)

/-- R179(c), R21: a cycle of the signals completes from every state that meets the invariants, and keeps
them. -/
def Obligations.EveryCycleKeepsEngineInvariant : Prop :=
  ∀ (p : Pins) (s : State), EngineInv s → ∃ t, cycle p s = .next t ∧ EngineInv t

/-- R183: a step of one engine leaves every other engine as it is. -/
def Obligations.EnginesShareNothing : Prop :=
  ∀ (k j : Nat) (sys sys' : System), systemStep k sys = .next sys' → j ≠ k → sys'[j]? = sys[j]?

/-- The model's loading of one instruction (log 6): the text placed is well formed, the invariants stay,
and the very next step runs the instruction. -/
def Obligations.PlacedWordRunsNext : Prop :=
  ∀ (s : State) (w : Nat),
    decodeTableWord 8 w = some (decode (BitVec.ofNat 8 w)) ∧
    step (s.withFetchWord 8 w) = exec (decode (BitVec.ofNat 8 w)) (s.withFetchWord 8 w) ∧
    wellFormed (s.withFetchWord 8 w).prog = true ∧
    (EngineInv s → EngineInv (s.withFetchWord 8 w))
end

