-- ==== Sys2Proof/Laws/Brackets.lean ====
section
/-! SUPPORT. The algebra of bracket depth, and the nesting counters of the scans in terms of it. -/

namespace Sys2Proof.Machine

/-- What one character adds to the depth: `[` one, `]` minus one, any other nothing. -/
def bracketStep (c : Byte) : Int := if c = codeJz then 1 else if c = codeJnz then -1 else 0

@[simp] theorem bracketDepth_nil : bracketDepth [] = 0 := rfl

@[simp] theorem bracketDepth_cons (c : Byte) (cs : Text) :
    bracketDepth (c :: cs) = bracketStep c + bracketDepth cs := by
  simp only [bracketDepth, bracketStep, List.count_cons, beq_iff_eq]
  by_cases h1 : c = codeJz
  · have : ¬ codeJz = codeJnz := by decide
    simp [h1, this]
    omega
  · by_cases h2 : c = codeJnz <;> simp [h1, h2]
    have : ¬ codeJnz = codeJz := by decide
    simp [this]
    omega

@[simp] theorem bracketDepth_append (xs ys : Text) :
    bracketDepth (xs ++ ys) = bracketDepth xs + bracketDepth ys := by
  induction xs with
  | nil => simp
  | cons c xs ih => simp [ih]; omega

@[simp] theorem bracketDepth_reverse (xs : Text) : bracketDepth xs.reverse = bracketDepth xs := by
  induction xs with
  | nil => rfl
  | cons c xs ih => simp [ih]; omega

theorem bracketDepth_le_length (xs : Text) : bracketDepth xs ≤ xs.length := by
  have := List.count_le_length (a := codeJz) (l := xs)
  unfold bracketDepth
  omega

theorem bracketStep_bounds (c : Byte) : -1 ≤ bracketStep c ∧ bracketStep c ≤ 1 := by
  unfold bracketStep
  split
  · omega
  · split <;> omega

@[simp] theorem bracketStep_jz : bracketStep codeJz = 1 := rfl

@[simp] theorem bracketStep_jnz : bracketStep codeJnz = -1 := rfl

theorem bracketStep_pos_iff (c : Byte) : 0 < bracketStep c ↔ c = codeJz := by
  unfold bracketStep
  split
  · simp_all
  · split <;> simp_all

theorem bracketStep_neg_iff (c : Byte) : bracketStep c < 0 ↔ c = codeJnz := by
  have : ¬ codeJz = codeJnz := by decide
  unfold bracketStep
  split
  · simp_all
  · split <;> simp_all

/-- The forward counter counts the depth. -/
theorem depthFwd_cast (c : Byte) {d : Nat} (h : 0 < d) : (depthFwd c d : Int) = d + bracketStep c := by
  unfold depthFwd bracketStep
  split
  · simp
  · split
    · omega
    · simp

/-- The backward counter counts the depth with the sign turned. -/
theorem depthBwd_cast (c : Byte) {d : Nat} (h : 0 < d) : (depthBwd c d : Int) = d - bracketStep c := by
  unfold depthBwd bracketStep
  by_cases h1 : c = codeJz
  · have : ¬ codeJz = codeJnz := by decide
    simp [h1, this]
    omega
  · by_cases h2 : c = codeJnz <;> simp [h1, h2]
    have : ¬ codeJnz = codeJz := by decide
    simp [this]

theorem validateScan_cons (stack : List Byte) (c : Byte) (cs : Text) :
    validateScan stack (c :: cs) =
      if c = codeJz then validateScan (codeJz :: stack) cs
      else if c = codeJnz then
        match stack with
        | [] => false
        | t :: below => if t = codeJz then validateScan below cs else false
      else validateScan stack cs := rfl

theorem tableScan_cons (stack : List Nat) (c : Byte) (cs : Text) (k : Nat) :
    tableScan stack (c :: cs) k =
      if c = codeJz then tableScan (k :: stack) cs (k + 1)
      else if c = codeJnz then
        match stack with
        | [] => tableScan [] cs (k + 1)
        | i :: below => (i, k) :: tableScan below cs (k + 1)
      else tableScan stack cs (k + 1) := rfl

theorem unmatched_cons (c : Byte) (cs : Text) (u h : Nat) :
    unmatched (c :: cs) u h =
      if c = codeJz then unmatched cs u (h + 1)
      else if c = codeJnz then
        match h with
        | 0 => unmatched cs (u + 1) 0
        | h' + 1 => unmatched cs u h'
      else unmatched cs u h := rfl

end Sys2Proof.Machine
end

