-- ==== Sys2Proof/Laws/State.lean ====
section
/-! SUPPORT. What each update of a state leaves in each field. -/

namespace Sys2Proof.Machine

/-- `TAPE_LEN` (00_scope.md R4). -/
theorem tapeLen_eq : Config.tapeLen = 30000 := rfl

variable (s : State)

@[simp] theorem State.setPc_prog (n : Nat) : (s.setPc n).prog = s.prog := rfl
@[simp] theorem State.setPc_tape (n : Nat) : (s.setPc n).tape = s.tape := rfl
@[simp] theorem State.setPc_pc (n : Nat) : (s.setPc n).pc = n := rfl
@[simp] theorem State.setPc_dp (n : Nat) : (s.setPc n).dp = s.dp := rfl
@[simp] theorem State.setPc_status (n : Nat) : (s.setPc n).status = s.status := rfl
@[simp] theorem State.setPc_err (n : Nat) : (s.setPc n).err = s.err := rfl
@[simp] theorem State.setPc_trace (n : Nat) : (s.setPc n).trace = s.trace := rfl
@[simp] theorem State.setPc_host (n : Nat) : (s.setPc n).host = s.host := rfl

@[simp] theorem State.setDp_prog (n : Nat) : (s.setDp n).prog = s.prog := rfl
@[simp] theorem State.setDp_tape (n : Nat) : (s.setDp n).tape = s.tape := rfl
@[simp] theorem State.setDp_pc (n : Nat) : (s.setDp n).pc = s.pc := rfl
@[simp] theorem State.setDp_dp (n : Nat) : (s.setDp n).dp = n := rfl
@[simp] theorem State.setDp_status (n : Nat) : (s.setDp n).status = s.status := rfl
@[simp] theorem State.setDp_err (n : Nat) : (s.setDp n).err = s.err := rfl
@[simp] theorem State.setDp_trace (n : Nat) : (s.setDp n).trace = s.trace := rfl
@[simp] theorem State.setDp_host (n : Nat) : (s.setDp n).host = s.host := rfl

@[simp] theorem State.setTape_prog (m : Memory) : (s.setTape m).prog = s.prog := rfl
@[simp] theorem State.setTape_tape (m : Memory) : (s.setTape m).tape = m := rfl
@[simp] theorem State.setTape_pc (m : Memory) : (s.setTape m).pc = s.pc := rfl
@[simp] theorem State.setTape_dp (m : Memory) : (s.setTape m).dp = s.dp := rfl
@[simp] theorem State.setTape_status (m : Memory) : (s.setTape m).status = s.status := rfl
@[simp] theorem State.setTape_err (m : Memory) : (s.setTape m).err = s.err := rfl
@[simp] theorem State.setTape_trace (m : Memory) : (s.setTape m).trace = s.trace := rfl
@[simp] theorem State.setTape_host (m : Memory) : (s.setTape m).host = s.host := rfl

@[simp] theorem State.setStatus_prog (v : Status) : (s.setStatus v).prog = s.prog := rfl
@[simp] theorem State.setStatus_tape (v : Status) : (s.setStatus v).tape = s.tape := rfl
@[simp] theorem State.setStatus_pc (v : Status) : (s.setStatus v).pc = s.pc := rfl
@[simp] theorem State.setStatus_dp (v : Status) : (s.setStatus v).dp = s.dp := rfl
@[simp] theorem State.setStatus_status (v : Status) : (s.setStatus v).status = v := rfl
@[simp] theorem State.setStatus_err (v : Status) : (s.setStatus v).err = s.err := rfl
@[simp] theorem State.setStatus_trace (v : Status) : (s.setStatus v).trace = s.trace := rfl
@[simp] theorem State.setStatus_host (v : Status) : (s.setStatus v).host = s.host := rfl

@[simp] theorem State.setErr_prog (v : Option FatalKind) : (s.setErr v).prog = s.prog := rfl
@[simp] theorem State.setErr_tape (v : Option FatalKind) : (s.setErr v).tape = s.tape := rfl
@[simp] theorem State.setErr_pc (v : Option FatalKind) : (s.setErr v).pc = s.pc := rfl
@[simp] theorem State.setErr_dp (v : Option FatalKind) : (s.setErr v).dp = s.dp := rfl
@[simp] theorem State.setErr_status (v : Option FatalKind) : (s.setErr v).status = s.status := rfl
@[simp] theorem State.setErr_err (v : Option FatalKind) : (s.setErr v).err = v := rfl
@[simp] theorem State.setErr_trace (v : Option FatalKind) : (s.setErr v).trace = s.trace := rfl
@[simp] theorem State.setErr_host (v : Option FatalKind) : (s.setErr v).host = s.host := rfl

@[simp] theorem State.setHost_prog (ms : List HostMove) : (s.setHost ms).prog = s.prog := rfl
@[simp] theorem State.setHost_tape (ms : List HostMove) : (s.setHost ms).tape = s.tape := rfl
@[simp] theorem State.setHost_pc (ms : List HostMove) : (s.setHost ms).pc = s.pc := rfl
@[simp] theorem State.setHost_dp (ms : List HostMove) : (s.setHost ms).dp = s.dp := rfl
@[simp] theorem State.setHost_status (ms : List HostMove) : (s.setHost ms).status = s.status := rfl
@[simp] theorem State.setHost_err (ms : List HostMove) : (s.setHost ms).err = s.err := rfl
@[simp] theorem State.setHost_trace (ms : List HostMove) : (s.setHost ms).trace = s.trace := rfl
@[simp] theorem State.setHost_host (ms : List HostMove) : (s.setHost ms).host = ms := rfl

@[simp] theorem State.note_prog (x : TraceItem) : (s.note x).prog = s.prog := rfl
@[simp] theorem State.note_tape (x : TraceItem) : (s.note x).tape = s.tape := rfl
@[simp] theorem State.note_pc (x : TraceItem) : (s.note x).pc = s.pc := rfl
@[simp] theorem State.note_dp (x : TraceItem) : (s.note x).dp = s.dp := rfl
@[simp] theorem State.note_status (x : TraceItem) : (s.note x).status = s.status := rfl
@[simp] theorem State.note_err (x : TraceItem) : (s.note x).err = s.err := rfl
@[simp] theorem State.note_trace (x : TraceItem) : (s.note x).trace = s.trace ++ [x] := rfl
@[simp] theorem State.note_host (x : TraceItem) : (s.note x).host = s.host := rfl

@[simp] theorem State.emit_prog (e : Event) : (s.emit e).prog = s.prog := rfl
@[simp] theorem State.emit_tape (e : Event) : (s.emit e).tape = s.tape := rfl
@[simp] theorem State.emit_pc (e : Event) : (s.emit e).pc = s.pc := rfl
@[simp] theorem State.emit_dp (e : Event) : (s.emit e).dp = s.dp := rfl
@[simp] theorem State.emit_status (e : Event) : (s.emit e).status = s.status := rfl
@[simp] theorem State.emit_err (e : Event) : (s.emit e).err = s.err := rfl
@[simp] theorem State.emit_trace (e : Event) : (s.emit e).trace = s.trace ++ [.event e] := rfl
@[simp] theorem State.emit_host (e : Event) : (s.emit e).host = s.host := rfl

@[simp] theorem State.advance_prog : s.advance.prog = s.prog := rfl
@[simp] theorem State.advance_tape : s.advance.tape = s.tape := rfl
@[simp] theorem State.advance_pc : s.advance.pc = s.pc + 1 := rfl
@[simp] theorem State.advance_dp : s.advance.dp = s.dp := rfl
@[simp] theorem State.advance_status : s.advance.status = s.status := rfl
@[simp] theorem State.advance_err : s.advance.err = s.err := rfl
@[simp] theorem State.advance_trace : s.advance.trace = s.trace := rfl
@[simp] theorem State.advance_host : s.advance.host = s.host := rfl

@[simp] theorem State.raiseFatal_prog (k : FatalKind) : (s.raiseFatal k).prog = s.prog := rfl
@[simp] theorem State.raiseFatal_tape (k : FatalKind) : (s.raiseFatal k).tape = s.tape := rfl
@[simp] theorem State.raiseFatal_pc (k : FatalKind) : (s.raiseFatal k).pc = s.pc := rfl
@[simp] theorem State.raiseFatal_dp (k : FatalKind) : (s.raiseFatal k).dp = s.dp := rfl
@[simp] theorem State.raiseFatal_status (k : FatalKind) : (s.raiseFatal k).status = .fatal := rfl
@[simp] theorem State.raiseFatal_err (k : FatalKind) : (s.raiseFatal k).err = some k := rfl
@[simp] theorem State.raiseFatal_trace (k : FatalKind) : (s.raiseFatal k).trace = s.trace ++ [.event (.fatal k)] := rfl
@[simp] theorem State.raiseFatal_host (k : FatalKind) : (s.raiseFatal k).host = s.host := rfl

@[simp] theorem State.reject_prog : s.reject.prog = s.prog := rfl
@[simp] theorem State.reject_tape : s.reject.tape = s.tape := rfl
@[simp] theorem State.reject_pc : s.reject.pc = s.pc := rfl
@[simp] theorem State.reject_dp : s.reject.dp = s.dp := rfl
@[simp] theorem State.reject_status : s.reject.status = s.status := rfl
@[simp] theorem State.reject_err : s.reject.err = s.err := rfl
@[simp] theorem State.reject_trace : s.reject.trace = s.trace ++ [.event .misuse] := rfl
@[simp] theorem State.reject_host : s.reject.host = s.host := rfl

@[simp] theorem State.construct_prog (p : Text) : (s.construct p).prog = p := rfl
@[simp] theorem State.construct_tape (p : Text) : (s.construct p).tape = [] := rfl
@[simp] theorem State.construct_pc (p : Text) : (s.construct p).pc = 0 := rfl
@[simp] theorem State.construct_dp (p : Text) : (s.construct p).dp = 0 := rfl
@[simp] theorem State.construct_status (p : Text) : (s.construct p).status = .ready := rfl
@[simp] theorem State.construct_err (p : Text) : (s.construct p).err = none := rfl
@[simp] theorem State.construct_trace (p : Text) : (s.construct p).trace = s.trace := rfl
@[simp] theorem State.construct_host (p : Text) : (s.construct p).host = s.host := rfl

end Sys2Proof.Machine
end

