-- ==== Sys2Proof/Laws/Memory.lean ====
section
/-! SUPPORT. The laws of the tape as data: what a read finds after a write, and that a write keeps the
canonical form. -/

namespace Sys2Proof.Machine

@[simp] theorem Memory.read_nil (a : Nat) : Memory.read [] a = 0#8 := rfl

theorem Memory.read_cons (b : Nat) (w : Byte) (m : Memory) (a : Nat) :
    Memory.read ((b, w) :: m) a = if a = b then w else Memory.read m a := rfl

theorem Memory.wfFrom_cons (lo b : Nat) (w : Byte) (m : Memory) :
    Memory.wfFrom lo ((b, w) :: m) = true ↔
      lo ≤ b ∧ b < Config.tapeLen ∧ w ≠ 0#8 ∧ Memory.wfFrom (b + 1) m = true := by
  simp [Memory.wfFrom, Config.unwrittenCell, and_assoc]

/-- A lower bound on the addresses may be lowered. -/
theorem Memory.wfFrom_mono {m : Memory} {lo lo' : Nat} (h : lo' ≤ lo)
    (hm : Memory.wfFrom lo m = true) : Memory.wfFrom lo' m = true := by
  cases m with
  | nil => rfl
  | cons c m =>
    obtain ⟨b, w⟩ := c
    rw [Memory.wfFrom_cons] at hm ⊢
    exact ⟨by omega, hm.2⟩

/-- Below its first address a canonical tape is unwritten. -/
theorem Memory.read_of_lt {m : Memory} {lo a : Nat} (hm : Memory.wfFrom lo m = true) (h : a < lo) :
    Memory.read m a = 0#8 := by
  induction m generalizing lo with
  | nil => rfl
  | cons c m ih =>
    obtain ⟨b, w⟩ := c
    rw [Memory.wfFrom_cons] at hm
    rw [Memory.read_cons, if_neg (by omega)]
    exact ih hm.2.2.2 (by omega)

/-- Beyond the tape a canonical tape is unwritten. -/
theorem Memory.read_of_ge {m : Memory} {lo a : Nat} (hm : Memory.wfFrom lo m = true)
    (h : Config.tapeLen ≤ a) : Memory.read m a = 0#8 := by
  induction m generalizing lo with
  | nil => rfl
  | cons c m ih =>
    obtain ⟨b, w⟩ := c
    rw [Memory.wfFrom_cons] at hm
    rw [Memory.read_cons, if_neg (by omega)]
    exact ih hm.2.2.2

theorem Memory.read_entry_append (a b : Nat) (v : Byte) (m : Memory) :
    Memory.read (Memory.entry a v ++ m) b =
      if b = a ∧ v ≠ 0#8 then v else Memory.read m b := by
  unfold Memory.entry Config.unwrittenCell
  by_cases hv : v = 0#8
  · simp [hv]
  · simp [hv, Memory.read_cons]

/-- Reading after a write: the value at the address written, every other cell as before
(20_memory.md R43). -/
theorem Memory.read_write {m : Memory} {lo : Nat} (hm : Memory.wfFrom lo m = true) (a : Nat)
    (v : Byte) (b : Nat) :
    Memory.read (Memory.write m a v) b = if b = a then v else Memory.read m b := by
  induction m generalizing lo with
  | nil =>
    have h := Memory.read_entry_append a b v []
    rw [List.append_nil] at h
    rw [Memory.write, h]
    by_cases hb : b = a <;> by_cases hv : v = 0#8 <;> simp [hb, hv]
  | cons c m ih =>
    obtain ⟨d, w⟩ := c
    have hm' := (Memory.wfFrom_cons ..).mp hm
    rw [Memory.write]
    by_cases h1 : a < d
    · rw [if_pos h1, Memory.read_entry_append]
      by_cases hb : b = a <;> by_cases hv : v = 0#8 <;> simp [hb, hv]
      have : Memory.wfFrom d ((d, w) :: m) = true :=
        (Memory.wfFrom_cons ..).mpr ⟨Nat.le_refl _, hm'.2⟩
      exact Memory.read_of_lt this h1
    · rw [if_neg h1]
      by_cases h2 : a = d
      · subst h2
        rw [if_pos rfl, Memory.read_entry_append, Memory.read_cons]
        by_cases hb : b = a <;> by_cases hv : v = 0#8 <;> simp [hb, hv]
        exact Memory.read_of_lt hm'.2.2.2 (Nat.lt_succ_self a)
      · rw [if_neg h2, Memory.read_cons, Memory.read_cons, ih hm'.2.2.2]
        by_cases hb : b = d
        · simp [hb, Ne.symm h2]
        · simp [hb]

theorem Memory.wfFrom_write {m : Memory} {lo a : Nat} (hm : Memory.wfFrom lo m = true) (v : Byte)
    (hlo : lo ≤ a) (ha : a < Config.tapeLen) : Memory.wfFrom lo (Memory.write m a v) = true := by
  induction m generalizing lo with
  | nil =>
    rw [Memory.write, Memory.entry]
    split
    · rfl
    · exact (Memory.wfFrom_cons ..).mpr ⟨hlo, ha, by assumption, rfl⟩
  | cons c m ih =>
    obtain ⟨d, w⟩ := c
    have hm' := (Memory.wfFrom_cons ..).mp hm
    rw [Memory.write, Memory.entry]
    by_cases h1 : a < d
    · rw [if_pos h1]
      split
      · exact hm
      · exact (Memory.wfFrom_cons ..).mpr
          ⟨hlo, ha, by assumption, (Memory.wfFrom_cons ..).mpr ⟨by omega, hm'.2⟩⟩
    · rw [if_neg h1]
      by_cases h2 : a = d
      · rw [if_pos h2]
        split
        · exact Memory.wfFrom_mono (by omega) hm'.2.2.2
        · exact (Memory.wfFrom_cons ..).mpr
            ⟨hlo, ha, by assumption, Memory.wfFrom_mono (by omega) hm'.2.2.2⟩
      · rw [if_neg h2]
        exact (Memory.wfFrom_cons ..).mpr ⟨hm'.1, hm'.2.1, hm'.2.2.1, ih hm'.2.2.2 (by omega)⟩

/-- A write to a cell of the tape keeps the canonical form. -/
theorem Memory.wf_write {m : Memory} {a : Nat} (hm : Memory.wf m = true) (v : Byte)
    (ha : a < Config.tapeLen) : Memory.wf (Memory.write m a v) = true :=
  Memory.wfFrom_write hm v (Nat.zero_le a) ha

@[simp] theorem reset_tape_wf : Memory.wf State.reset.tape = true := rfl

end Sys2Proof.Machine
end

