-- ==== Sys2Proof/Laws/Ops.lean ====
section
/-! SUPPORT. One lemma per shared operation: everything it can answer. -/

namespace Sys2Proof.Machine

@[simp] theorem outcome_ok (s : State) : outcome (.ok s) = .next s := rfl

@[simp] theorem outcome_error (f : Fault) : outcome (.error f) = .fault f := rfl

theorem outcome_next_iff {x : Except Fault State} {t : State} :
    outcome x = .next t ↔ x = .ok t := by
  cases x <;> simp [outcome]

theorem readCell_of_lt {s : State} (h : s.dp < Config.tapeLen) :
    readCell s = .ok (Memory.read s.tape s.dp) := if_pos h

theorem readCell_of_ge {s : State} (h : ¬ s.dp < Config.tapeLen) :
    readCell s = .error .tapeAddressOutside := if_neg h

theorem writeCell_of_lt {s : State} (v : Byte) (h : s.dp < Config.tapeLen) :
    writeCell s v = .ok (s.setTape (Memory.write s.tape s.dp v)) := if_pos h

theorem writeCell_of_ge {s : State} (v : Byte) (h : ¬ s.dp < Config.tapeLen) :
    writeCell s v = .error .tapeAddressOutside := if_neg h

/-- Updating the current cell: on the tape it writes the new value there and advances, elsewhere it
stops. -/
theorem updateCell_eq (f : Byte → Byte) (s : State) :
    updateCell f s =
      if s.dp < Config.tapeLen then
        .ok (s.setTape (Memory.write s.tape s.dp (f (Memory.read s.tape s.dp)))).advance
      else .error .tapeAddressOutside := by
  unfold updateCell
  by_cases h : s.dp < Config.tapeLen
  · rw [readCell_of_lt h, if_pos h]
    show (writeCell s _ >>= _) = _
    rw [writeCell_of_lt _ h]
    rfl
  · rw [readCell_of_ge h, if_neg h]
    rfl

theorem cellIsZero_iff (v : Byte) : cellIsZero v = true ↔ v = 0#8 := by
  simp [cellIsZero, BitVec.toNat_eq]

theorem jumpPast_ok_iff {s t : State} {j : Option Nat} :
    jumpPast s j = .ok t ↔ ∃ k, j = some k ∧ t = s.setPc (k + 1) := by
  cases j <;> simp [jumpPast, eq_comm]

end Sys2Proof.Machine
end

