-- ==== Sys2Proof/Laws/Exec.lean ====
section
/-! SUPPORT. What each meaning answers, as one equation. -/

namespace Sys2Proof.Machine

theorem execInc_eq (s : State) :
    execInc s =
      if s.dp < Config.tapeLen then
        .next (s.setTape (Memory.write s.tape s.dp (cellPlusOne (Memory.read s.tape s.dp)))).advance
      else .fault .tapeAddressOutside := by
  unfold execInc
  rw [updateCell_eq]
  split <;> rfl

theorem execDec_eq (s : State) :
    execDec s =
      if s.dp < Config.tapeLen then
        .next (s.setTape (Memory.write s.tape s.dp (cellMinusOne (Memory.read s.tape s.dp)))).advance
      else .fault .tapeAddressOutside := by
  unfold execDec
  rw [updateCell_eq]
  split <;> rfl

theorem execOut_eq (s : State) :
    execOut s =
      if s.dp < Config.tapeLen then .next (s.emit (.out (Memory.read s.tape s.dp))).advance
      else .fault .tapeAddressOutside := by
  unfold execOut
  by_cases h : s.dp < Config.tapeLen
  · rw [readCell_of_lt h, if_pos h]
    rfl
  · rw [readCell_of_ge h, if_neg h]
    rfl

theorem execLeft_eq (s : State) :
    execLeft s =
      if s.dp = 0 then .next (s.raiseFatal .tapeUnderflow)
      else .next (s.setDp (s.dp - 1)).advance := by
  have h : ((s.dp : Int) - 1).toNat = s.dp - 1 := by omega
  simp only [execLeft, h]
  by_cases h0 : s.dp = 0
  · rw [if_pos (by omega), if_pos h0]
  · rw [if_neg (by omega), if_neg h0]

theorem execRight_eq (s : State) :
    execRight s =
      if s.dp + 1 < Config.tapeLen then .next (s.setDp (s.dp + 1)).advance
      else .next (s.raiseFatal .tapeOverflow) := by
  simp only [execRight]
  by_cases h : s.dp + 1 < Config.tapeLen
  · rw [if_neg (by omega), if_pos h]
  · rw [if_pos (by omega), if_neg h]

theorem execJz_eq (s : State) :
    execJz s =
      if s.dp < Config.tapeLen then
        if Memory.read s.tape s.dp = 0#8 then outcome (jumpPast s (matchFwd s.prog s.pc))
        else .next s.advance
      else .fault .tapeAddressOutside := by
  unfold execJz
  by_cases h : s.dp < Config.tapeLen
  · rw [readCell_of_lt h, if_pos h]
    show outcome (if cellIsZero (Memory.read s.tape s.dp) = true then _ else _) = _
    simp only [cellIsZero_iff]
    split <;> rfl
  · rw [readCell_of_ge h, if_neg h]
    rfl

theorem execJnz_eq (s : State) :
    execJnz s =
      if s.dp < Config.tapeLen then
        if Memory.read s.tape s.dp = 0#8 then .next s.advance
        else outcome (jumpPast s (matchBwd s.prog s.pc))
      else .fault .tapeAddressOutside := by
  unfold execJnz
  by_cases h : s.dp < Config.tapeLen
  · rw [readCell_of_lt h, if_pos h]
    show outcome (if cellIsZero (Memory.read s.tape s.dp) = true then _ else _) = _
    simp only [cellIsZero_iff]
    split <;> rfl
  · rw [readCell_of_ge h, if_neg h]
    rfl

/-- Everything an instruction that goes on can have done. -/
theorem exec_cases {i : Instr} {s t : State} (h : exec i s = .next t) :
    (i = .inc ∧ s.dp < Config.tapeLen ∧
      t = (s.setTape (Memory.write s.tape s.dp (cellPlusOne (Memory.read s.tape s.dp)))).advance) ∨
    (i = .dec ∧ s.dp < Config.tapeLen ∧
      t = (s.setTape (Memory.write s.tape s.dp (cellMinusOne (Memory.read s.tape s.dp)))).advance) ∨
    (i = .out ∧ s.dp < Config.tapeLen ∧ t = (s.emit (.out (Memory.read s.tape s.dp))).advance) ∨
    (i = .inp ∧ t = (s.emit .awaitBegin).setStatus .awaitingInput) ∨
    (i = .left ∧ s.dp = 0 ∧ t = s.raiseFatal .tapeUnderflow) ∨
    (i = .left ∧ s.dp ≠ 0 ∧ t = (s.setDp (s.dp - 1)).advance) ∨
    (i = .right ∧ s.dp + 1 < Config.tapeLen ∧ t = (s.setDp (s.dp + 1)).advance) ∨
    (i = .right ∧ ¬ s.dp + 1 < Config.tapeLen ∧ t = s.raiseFatal .tapeOverflow) ∨
    (i = .jz ∧ s.dp < Config.tapeLen ∧ Memory.read s.tape s.dp ≠ 0#8 ∧ t = s.advance) ∨
    (i = .jz ∧ s.dp < Config.tapeLen ∧ Memory.read s.tape s.dp = 0#8 ∧
      ∃ j, matchFwd s.prog s.pc = some j ∧ t = s.setPc (j + 1)) ∨
    (i = .jnz ∧ s.dp < Config.tapeLen ∧ Memory.read s.tape s.dp = 0#8 ∧ t = s.advance) ∨
    (i = .jnz ∧ s.dp < Config.tapeLen ∧ Memory.read s.tape s.dp ≠ 0#8 ∧
      ∃ j, matchBwd s.prog s.pc = some j ∧ t = s.setPc (j + 1)) ∨
    (∃ c, i = .nop c) ∧ t = s.advance := by
  cases i with
  | inc =>
    simp only [exec, execInc_eq] at h
    split at h
    · cases h; simp_all
    · cases h
  | dec =>
    simp only [exec, execDec_eq] at h
    split at h
    · cases h; simp_all
    · cases h
  | out =>
    simp only [exec, execOut_eq] at h
    split at h
    · cases h; simp_all
    · cases h
  | inp => simpa [exec, execInp, eq_comm] using h
  | left =>
    simp only [exec, execLeft_eq] at h
    split at h <;> cases h <;> simp_all
  | right =>
    simp only [exec, execRight_eq] at h
    split at h <;> cases h <;> simp_all
  | jz =>
    simp only [exec, execJz_eq] at h
    split at h
    · split at h
      · rw [outcome_next_iff, jumpPast_ok_iff] at h
        simp_all
      · cases h; simp_all
    · cases h
  | jnz =>
    simp only [exec, execJnz_eq] at h
    split at h
    · split at h
      · cases h; simp_all
      · rw [outcome_next_iff, jumpPast_ok_iff] at h
        simp_all
    · cases h
  | nop c => simpa [exec, execNop, eq_comm] using h

end Sys2Proof.Machine
end

