-- ==== Sys2Proof/Laws/PerInstr.lean ====
section
/-! SUPPORT. Per instruction: its word lies under its own row of the opcode table. -/

namespace Sys2Proof.Laws.OpcodeRow

/-- The character and the mask of the row of spec/opcode_table.json an instruction belongs to. -/
def tableRow : Instr → Byte × Byte
  | .inc => (0xFF, 43)
  | .inp => (0xFF, 44)
  | .dec => (0xFF, 45)
  | .out => (0xFF, 46)
  | .left => (0xFF, 60)
  | .right => (0xFF, 62)
  | .jz => (0xFF, 91)
  | .jnz => (0xFF, 93)
  | .nop _ => (0x00, 0)

/-- The word of the instruction matches its own row, and a well-formed one matches no exact row but its
own (30_encoding.md R62, R63). -/
def Statement (i : Instr) : Prop :=
  encode i &&& (tableRow i).1 = (tableRow i).2 ∧
  (i.wellFormed = true → ∀ r ∈ opcodeRows, r.hits (encode i) = true → r.instr = i)

theorem inc : Statement .inc := by unfold Statement; decide

theorem inp : Statement .inp := by unfold Statement; decide

theorem dec : Statement .dec := by unfold Statement; decide

theorem out : Statement .out := by unfold Statement; decide

theorem left : Statement .left := by unfold Statement; decide

theorem right : Statement .right := by unfold Statement; decide

theorem jz : Statement .jz := by unfold Statement; decide

theorem jnz : Statement .jnz := by unfold Statement; decide

theorem nop (code : Byte) : Statement (.nop code) := by
  revert code
  unfold Statement
  decide +kernel

end Sys2Proof.Laws.OpcodeRow
end

