-- ==== Sys2Proof/Laws/Step.lean ====
section
/-! SUPPORT. What one step of the machine can be: a command, the halt step, an instruction, or a hold. -/

namespace Sys2Proof.Machine

theorem step_nil {s : State} (h : s.host = []) : step s = engineStep s := by
  simp only [step, nextTransition, h, transition]

theorem step_engine {s : State} {ms : List HostMove} (h : s.host = .engine :: ms) :
    step s = engineStep (s.setHost ms) := by
  simp only [step, nextTransition, h, transition]

theorem step_command {s : State} {c : Command} {ms : List HostMove} (h : s.host = .command c :: ms) :
    step s = issue c (s.setHost ms) := by
  simp only [step, nextTransition, h, transition]

/-- Everything an engine step that goes on can have done. -/
theorem engineStep_cases {s t : State} (h : engineStep s = .next t) :
    (s.status ≠ .running ∧ t = s) ∨
    (s.status = .running ∧ s.pc = s.prog.length ∧ t = haltStep s) ∨
    (s.status = .running ∧ ∃ c, s.prog[s.pc]? = some c ∧ exec (decode c) s = .next t) := by
  unfold engineStep at h
  split at h
  · split at h
    · cases h
      simp_all
    · unfold instructionStep at h
      split at h
      · rename_i hc
        exact .inr (.inr ⟨‹_›, _, hc, h⟩)
      · cases h
  · cases h
    simp_all

/-- Everything a command that goes on can have done. -/
theorem issue_cases {c : Command} {s t : State} (h : issue c s = .next t) :
    (∃ p, c = .reset p ∧ t = resetCommand p (s.note (.command c))) ∨
    (c = .start ∧ s.status = .ready ∧ t = (s.note (.command c)).setStatus .running) ∨
    (c = .start ∧ s.status ≠ .ready ∧ t = (s.note (.command c)).reject) ∨
    (∃ b, c = .deliver b ∧ s.status = .awaitingInput ∧ s.dp < Config.tapeLen ∧
      t = ((((s.note (.command c)).setTape (Memory.write s.tape s.dp b)).advance.emit
        .awaitEnd).setStatus .running)) ∨
    (∃ b, c = .deliver b ∧ s.status ≠ .awaitingInput ∧ t = (s.note (.command c)).reject) := by
  cases c with
  | reset p => exact .inl ⟨p, rfl, by simpa [issue] using h.symm⟩
  | start =>
    simp only [issue, startCommand] at h
    split at h <;> cases h <;> simp_all
  | deliver b =>
    simp only [issue, deliverCommand, outcome_next_iff] at h
    split at h
    · unfold completeInput at h
      by_cases hd : s.dp < Config.tapeLen
      · rw [writeCell_of_lt _ (by simpa using hd)] at h
        cases h
        simp_all
      · rw [writeCell_of_ge _ (by simpa using hd)] at h
        cases h
    · cases h
      simp_all

/-- A step is a command of the host or a step of the engine. -/
theorem step_cases {s t : State} (h : step s = .next t) :
    (∃ c ms, s.host = .command c :: ms ∧ issue c (s.setHost ms) = .next t) ∨
    (s.engineNext = true ∧ engineStep (s.setHost s.host.tail) = .next t) := by
  rcases hh : s.host with _ | ⟨m, ms⟩
  · rw [step_nil hh] at h
    have : s.setHost [] = s := by cases s; simp_all [State.setHost]
    exact .inr ⟨by simp [State.engineNext, hh], by simpa [this] using h⟩
  · cases m with
    | command c => exact .inl ⟨c, ms, rfl, by rwa [step_command hh] at h⟩
    | engine => exact .inr ⟨by simp [State.engineNext, hh], by rwa [step_engine hh] at h⟩

/-! ### The effect of a step, written out -/

theorem engineNext_of_command {s : State} {c : Command} {ms : List HostMove}
    (h : s.host = .command c :: ms) : s.engineNext = false := by
  simp [State.engineNext, h]

theorem resetNext_of_reset {s : State} {p : Text} {ms : List HostMove}
    (h : s.host = .command (.reset p) :: ms) : s.resetNext = true := by
  simp [State.resetNext, h]

theorem resetNext_of_start {s : State} {ms : List HostMove}
    (h : s.host = .command .start :: ms) : s.resetNext = false := by
  simp [State.resetNext, h]

theorem resetNext_of_deliver {s : State} {b : Byte} {ms : List HostMove}
    (h : s.host = .command (.deliver b) :: ms) : s.resetNext = false := by
  simp [State.resetNext, h]

theorem resetNext_of_engineNext {s : State} (h : s.engineNext = true) : s.resetNext = false := by
  unfold State.engineNext at h
  unfold State.resetNext
  split at h <;> simp_all

/-- Which instruction a character is (30_encoding.md R62). -/
theorem decode_eq_iff : ∀ c : Byte,
    (decode c = .inc ↔ c = codeInc) ∧ (decode c = .inp ↔ c = codeInp) ∧
    (decode c = .dec ↔ c = codeDec) ∧ (decode c = .out ↔ c = codeOut) ∧
    (decode c = .left ↔ c = codeLeft) ∧ (decode c = .right ↔ c = codeRight) ∧
    (decode c = .jz ↔ c = codeJz) ∧ (decode c = .jnz ↔ c = codeJnz) := by
  decide +kernel

/-- A `nop` carries its own character, which is none of the eight. -/
theorem decode_nop_iff : ∀ c d : Byte, decode c = .nop d →
    c = d ∧ c ≠ codeInc ∧ c ≠ codeInp ∧ c ≠ codeDec ∧ c ≠ codeOut ∧ c ≠ codeLeft ∧
    c ≠ codeRight ∧ c ≠ codeJz ∧ c ≠ codeJnz := by
  intro c d h
  have key : ∀ c : Byte, encode (decode c) = c ∧ (isInstructionCharacter c = true ↔
      c = codeInc ∨ c = codeInp ∨ c = codeDec ∨ c = codeOut ∨ c = codeLeft ∨ c = codeRight ∨
      c = codeJz ∨ c = codeJnz) := by decide +kernel
  obtain ⟨h1, h2⟩ := key c
  have h3 : isInstructionCharacter c = false := by simp [isInstructionCharacter, h]
  rw [h] at h1
  refine ⟨h1.symm, ?_⟩
  rw [h3] at h2
  simpa only [Bool.false_eq_true, false_iff, not_or] using h2

/-- Everything the instruction of the character `c` can have done to `s`. -/
inductive InstrEffect (s t : State) (c : Byte) : Prop
  | inc (hc : c = codeInc) (hd : s.dp < Config.tapeLen)
      (ht : t = { s with
        tape := Memory.write s.tape s.dp (cellPlusOne (Memory.read s.tape s.dp)), pc := s.pc + 1 })
  | dec (hc : c = codeDec) (hd : s.dp < Config.tapeLen)
      (ht : t = { s with
        tape := Memory.write s.tape s.dp (cellMinusOne (Memory.read s.tape s.dp)), pc := s.pc + 1 })
  | out (hc : c = codeOut) (hd : s.dp < Config.tapeLen)
      (ht : t = { s with
        trace := s.trace ++ [.event (.out (Memory.read s.tape s.dp))], pc := s.pc + 1 })
  | inp (hc : c = codeInp)
      (ht : t = { s with trace := s.trace ++ [.event .awaitBegin], status := .awaitingInput })
  | left (hc : c = codeLeft) (hd : s.dp ≠ 0) (ht : t = { s with dp := s.dp - 1, pc := s.pc + 1 })
  | underflow (hc : c = codeLeft) (hd : s.dp = 0)
      (ht : t = { s with
        trace := s.trace ++ [.event (.fatal .tapeUnderflow)]
        status := .fatal, err := some .tapeUnderflow })
  | right (hc : c = codeRight) (hd : s.dp + 1 < Config.tapeLen)
      (ht : t = { s with dp := s.dp + 1, pc := s.pc + 1 })
  | overflow (hc : c = codeRight) (hd : ¬ s.dp + 1 < Config.tapeLen)
      (ht : t = { s with
        trace := s.trace ++ [.event (.fatal .tapeOverflow)]
        status := .fatal, err := some .tapeOverflow })
  | jzThrough (hc : c = codeJz) (hz : Memory.read s.tape s.dp ≠ 0#8)
      (ht : t = { s with pc := s.pc + 1 })
  | jzTaken (hc : c = codeJz) (hz : Memory.read s.tape s.dp = 0#8) (j : Nat)
      (hj : matchFwd s.prog s.pc = some j) (ht : t = { s with pc := j + 1 })
  | jnzThrough (hc : c = codeJnz) (hz : Memory.read s.tape s.dp = 0#8)
      (ht : t = { s with pc := s.pc + 1 })
  | jnzTaken (hc : c = codeJnz) (hz : Memory.read s.tape s.dp ≠ 0#8) (i : Nat)
      (hi : matchBwd s.prog s.pc = some i) (ht : t = { s with pc := i + 1 })
  | nop (hc : decode c = .nop c) (ht : t = { s with pc := s.pc + 1 })

theorem exec_effect {s t : State} {c : Byte} (h : exec (decode c) s = .next t) :
    InstrEffect s t c := by
  obtain ⟨h1, h2, h3, h4, h5, h6, h7, h8⟩ := decode_eq_iff c
  rcases exec_cases h with ⟨hi, hd, rfl⟩ | ⟨hi, hd, rfl⟩ | ⟨hi, hd, rfl⟩ | ⟨hi, rfl⟩ | ⟨hi, hd, rfl⟩ |
    ⟨hi, hd, rfl⟩ | ⟨hi, hd, rfl⟩ | ⟨hi, hd, rfl⟩ | ⟨hi, _, hz, rfl⟩ | ⟨hi, _, hz, j, hj, rfl⟩ |
    ⟨hi, _, hz, rfl⟩ | ⟨hi, _, hz, j, hj, rfl⟩ | ⟨⟨d, hi⟩, rfl⟩
  · exact .inc (h1.mp hi) hd rfl
  · exact .dec (h3.mp hi) hd rfl
  · exact .out (h4.mp hi) hd rfl
  · exact .inp (h2.mp hi) rfl
  · exact .underflow (h5.mp hi) hd rfl
  · exact .left (h5.mp hi) hd rfl
  · exact .right (h6.mp hi) hd rfl
  · exact .overflow (h6.mp hi) hd rfl
  · exact .jzThrough (h7.mp hi) hz rfl
  · exact .jzTaken (h7.mp hi) hz j hj rfl
  · exact .jnzThrough (h8.mp hi) hz rfl
  · exact .jnzTaken (h8.mp hi) hz j hj rfl
  · obtain ⟨rfl, _⟩ := decode_nop_iff c d hi
    exact .nop hi rfl

/-- Everything a step that goes on can have done to `s`. -/
inductive StepEffect (s t : State) : Prop
  | reset (p : Text) (ms : List HostMove) (hh : s.host = .command (.reset p) :: ms)
      (he : s.engineNext = false) (hr : s.resetNext = true) (hw : wellFormed p = true)
      (ht : t = ⟨p, [], 0, 0, .ready, none, s.trace ++ [.command (.reset p)], ms⟩)
  | resetRejected (p : Text) (ms : List HostMove) (hh : s.host = .command (.reset p) :: ms)
      (he : s.engineNext = false) (hr : s.resetNext = true) (hw : wellFormed p = false)
      (ht : t = ⟨p, [], 0, 0, .fatal, some .structuralError,
        s.trace ++ [.command (.reset p), .event (.fatal .structuralError)], ms⟩)
  | start (ms : List HostMove) (hh : s.host = .command .start :: ms)
      (he : s.engineNext = false) (hr : s.resetNext = false) (hs : s.status = .ready)
      (ht : t = { s with
        host := ms, status := .running, trace := s.trace ++ [.command .start] })
  | startRejected (ms : List HostMove) (hh : s.host = .command .start :: ms)
      (he : s.engineNext = false) (hr : s.resetNext = false) (hs : s.status ≠ .ready)
      (ht : t = { s with
        host := ms, trace := s.trace ++ [.command .start, .event .misuse] })
  | deliver (b : Byte) (ms : List HostMove) (hh : s.host = .command (.deliver b) :: ms)
      (he : s.engineNext = false) (hr : s.resetNext = false) (hs : s.status = .awaitingInput)
      (hd : s.dp < Config.tapeLen)
      (ht : t = { s with
        host := ms, status := .running, tape := Memory.write s.tape s.dp b, pc := s.pc + 1
        trace := s.trace ++ [.command (.deliver b), .event .awaitEnd] })
  | deliverRejected (b : Byte) (ms : List HostMove) (hh : s.host = .command (.deliver b) :: ms)
      (he : s.engineNext = false) (hr : s.resetNext = false) (hs : s.status ≠ .awaitingInput)
      (ht : t = { s with
        host := ms, trace := s.trace ++ [.command (.deliver b), .event .misuse] })
  | hold (he : s.engineNext = true) (hr : s.resetNext = false) (hs : s.status ≠ .running)
      (ht : t = { s with host := s.host.tail })
  | halt (he : s.engineNext = true) (hr : s.resetNext = false) (hs : s.status = .running)
      (hp : s.pc = s.prog.length)
      (ht : t = { s with
        host := s.host.tail, status := .halted, trace := s.trace ++ [.event .halt] })
  | instr (c : Byte) (he : s.engineNext = true) (hr : s.resetNext = false)
      (hs : s.status = .running) (hc : s.prog[s.pc]? = some c)
      (hi : InstrEffect (s.setHost s.host.tail) t c)

theorem step_effect {s t : State} (h : step s = .next t) : StepEffect s t := by
  rcases step_cases h with ⟨c, ms, hh, hi⟩ | ⟨he, hi⟩
  · have hn := engineNext_of_command hh
    rcases issue_cases hi with ⟨p, rfl, rfl⟩ | ⟨rfl, h1, rfl⟩ | ⟨rfl, h1, rfl⟩ |
      ⟨b, rfl, h1, h2, rfl⟩ | ⟨b, rfl, h1, rfl⟩
    · have hr := resetNext_of_reset hh
      by_cases w : wellFormed p = true
      · exact .reset p ms hh hn hr w (by simp only [resetCommand, if_pos w]; rfl)
      · exact .resetRejected p ms hh hn hr (by simpa using w) (by
          simp [resetCommand, w, State.raiseFatal, State.emit, State.note, State.setStatus,
            State.setErr, State.construct, State.setHost])
    · exact .start ms hh hn (resetNext_of_start hh) h1 rfl
    · exact .startRejected ms hh hn (resetNext_of_start hh) h1 (by
        simp [State.reject, State.emit, State.note, State.setHost])
    · exact .deliver b ms hh hn (resetNext_of_deliver hh) h1 h2 (by
        simp [State.setStatus, State.emit, State.note, State.setHost, State.advance, State.setPc,
          State.setTape])
    · exact .deliverRejected b ms hh hn (resetNext_of_deliver hh) h1 (by
        simp [State.reject, State.emit, State.note, State.setHost])
  · have hr := resetNext_of_engineNext he
    rcases engineStep_cases hi with ⟨h1, rfl⟩ | ⟨h1, h2, rfl⟩ | ⟨h1, c, h2, h3⟩
    · exact .hold he hr h1 rfl
    · exact .halt he hr h1 h2 (by
        simp [haltStep, State.setStatus, State.emit, State.note, State.setHost])
    · exact .instr c he hr h1 h2 (exec_effect h3)

/-! ### Events -/

@[simp] theorem eventsOf_nil : eventsOf [] = [] := rfl

@[simp] theorem eventsOf_command (c : Command) (xs : List TraceItem) :
    eventsOf (.command c :: xs) = eventsOf xs := rfl

@[simp] theorem eventsOf_event (e : Event) (xs : List TraceItem) :
    eventsOf (.event e :: xs) = e :: eventsOf xs := rfl

@[simp] theorem eventsOf_append (xs ys : List TraceItem) :
    eventsOf (xs ++ ys) = eventsOf xs ++ eventsOf ys := List.filterMap_append

/-- What was appended to a trace is what is new. -/
theorem newEvents_of_append {s t : State} {xs : List TraceItem} (h : t.trace = s.trace ++ xs) :
    newEvents s t = eventsOf xs := by
  simp [newEvents, h]

/-! ### The run of a host that answers requests -/

theorem drive_waits {s : State} (h : s.status = .awaitingInput) (n : Nat) :
    drive (n + 1) [] s = .next s := by
  rw [drive.eq_def]
  simp only [if_pos h]

theorem drive_delivers {s t : State} {b : Byte} (h : s.status = .awaitingInput)
    (hi : issue (.deliver b) s = .next t) (n : Nat) (bytes : List Byte) :
    drive (n + 1) (b :: bytes) s = drive n bytes t := by
  rw [drive.eq_def]
  simp only [if_pos h, hi]

theorem drive_steps {s t : State} (h : s.status ≠ .awaitingInput) (hi : engineStep s = .next t)
    (n : Nat) (bytes : List Byte) : drive (n + 1) bytes s = drive n bytes t := by
  rw [drive.eq_def]
  simp only [if_neg h, hi]

/-- An accepted `Deliver` on the tape. -/
theorem issue_deliver_accepted {s : State} (b : Byte) (hs : s.status = .awaitingInput)
    (hd : s.dp < Config.tapeLen) :
    issue (.deliver b) s = .next { s with
      tape := Memory.write s.tape s.dp b, pc := s.pc + 1, status := .running
      trace := s.trace ++ [.command (.deliver b), .event .awaitEnd] } := by
  have h : writeCell (s.note (.command (.deliver b))) b =
      .ok ((s.note (.command (.deliver b))).setTape (Memory.write s.tape s.dp b)) :=
    writeCell_of_lt _ hd
  have hs' : (s.note (.command (.deliver b))).status = .awaitingInput := hs
  simp only [issue, deliverCommand, if_pos hs', completeInput, h]
  simp [outcome, bind, Except.bind, State.setStatus, State.emit, State.note, State.advance,
    State.setPc, State.setTape]

end Sys2Proof.Machine
end

