-- ==== Sys2Proof/Tests/Slice0.lean ====
section
/-! SUPPORT. Tests whose expected results are the spec's (95_test_vectors.md, named by their ids, and the
encoding tables), and one witness `test_wit_<Name>` for each statement that has hypotheses. -/

namespace Sys2Proof.Machine

/-- A running machine without trace or plan. -/
def running (text : Text) (tape : Memory) (pc dp : Nat) : State :=
  { prog := text, tape := tape, pc := pc, dp := dp, status := .running, err := none, trace := [],
    host := [] }

/-- Another status. -/
def State.inStatus (s : State) (v : Status) : State := s.setStatus v

/-- What a test looks at: `PC`, `DP`, the non-zero cells, `STATUS`, `ERR`, the events. -/
structure View where
  pc     : Nat
  dp     : Nat
  tape   : Memory
  status : Status
  err    : Option FatalKind
  events : List Event
  deriving DecidableEq, Repr

/-- The view of the state an outcome goes on in. -/
def seen (x : Host.Outcome State Fault Refusal) : Option View :=
  (nextState x).map fun s => ⟨s.pc, s.dp, s.tape, s.status, s.err, eventsOf s.trace⟩

/-- `[a[b]c]d`, LP8. -/
def textLp8 : Text := [0x5B, 0x61, 0x5B, 0x62, 0x5D, 0x63, 0x5D, 0x64]

/-- `++[>++[>++<-]<-]>>.`, 44_loop.md R147. -/
def textP4 : Text :=
  [0x2B, 0x2B, 0x5B, 0x3E, 0x2B, 0x2B, 0x5B, 0x3E, 0x2B, 0x2B, 0x3C, 0x2D, 0x5D, 0x3C, 0x2D, 0x5D,
   0x3E, 0x3E, 0x2E]

/-! ### Which terms and texts are well formed -/

/-- R160: a `nop` with the character of an instruction is no instruction. -/
theorem test_illformed_nop :
    (Instr.nop 0x2B).wellFormed = false ∧ (Instr.nop 0x2C).wellFormed = false ∧
    (Instr.nop 0x2D).wellFormed = false ∧ (Instr.nop 0x2E).wellFormed = false ∧
    (Instr.nop 0x3C).wellFormed = false ∧ (Instr.nop 0x3E).wellFormed = false ∧
    (Instr.nop 0x5B).wellFormed = false ∧ (Instr.nop 0x5D).wellFormed = false := by decide

/-- RS1 to RS4, and LP8. -/
theorem test_wellformed_texts :
    wellFormed [] = true ∧ wellFormed [0x2B, 0x2D, 0x3C, 0x3E, 0x2E, 0x2C] = true ∧
    wellFormed [0x5B, 0x5D] = true ∧ wellFormed [0x5B, 0x5B, 0x5D, 0x5B, 0x5D, 0x5D] = true ∧
    wellFormed textLp8 = true := by decide

/-- RS5 to RS10. -/
theorem test_illformed_texts :
    wellFormed [0x5D] = false ∧ wellFormed [0x5B] = false ∧ wellFormed [0x5D, 0x5B] = false ∧
    wellFormed [0x5B, 0x5D, 0x5D] = false ∧ wellFormed [0x5B, 0x5B, 0x5D] = false ∧
    wellFormed [0x2B, 0x5D, 0x2B, 0x5B] = false := by decide

/-! ### Decoding, words of 30_encoding.md R62, R63 -/

theorem test_decode_inc : decode 0b00101011 = .inc := by decide
theorem test_decode_inp : decode 0b00101100 = .inp := by decide
theorem test_decode_dec : decode 0b00101101 = .dec := by decide
theorem test_decode_out : decode 0b00101110 = .out := by decide
theorem test_decode_left : decode 0b00111100 = .left := by decide
theorem test_decode_right : decode 0b00111110 = .right := by decide
theorem test_decode_jz : decode 0b01011011 = .jz := by decide
theorem test_decode_jnz : decode 0b01011101 = .jnz := by decide

/-- NP2 to NP4: the neighbours of the eight codes, and both ends. -/
theorem test_decode_nop :
    decode 0b00111101 = .nop 0x3D ∧ decode 0b01011100 = .nop 0x5C ∧ decode 0b00101111 = .nop 0x2F ∧
    decode 0b00101010 = .nop 0x2A ∧ decode 0b00000000 = .nop 0x00 ∧ decode 0b11111111 = .nop 0xFF ∧
    decode 0b01100001 = .nop 0x61 := by decide

/-- R60: one character off the front; address `L` holds none. -/
theorem test_decode_text :
    decodeText [0x2C, 0x2E] = .ok (.inp, [0x2E]) ∧ decodeText [] = .error .endOfText := by decide

theorem test_decode_table_word :
    decodeTableWord 8 0x5B = some .jz ∧ decodeTableWord 8 0x5D = some .jnz ∧
    decodeTableWord 8 0x00 = some (.nop 0x00) ∧ decodeTableWord 16 0x5B = none := by decide

/-- A word placed at reset runs: `[` over the clear cell lands past its bracket, `]` falls through. -/
theorem test_fetch_word :
    seen (step (State.reset.withFetchWord 8 0x2B)) = some ⟨1, 0, [(0, 1)], .running, none, []⟩ ∧
    seen (step (State.reset.withFetchWord 8 0x5B)) = some ⟨2, 0, [], .running, none, []⟩ ∧
    seen (step (State.reset.withFetchWord 8 0x5D)) = some ⟨2, 0, [], .running, none, []⟩ ∧
    seen (step (State.reset.withFetchWord 8 0x61)) = some ⟨1, 0, [], .running, none, []⟩ := by decide

/-! ### One instruction step -/

/-- AR1 to AR4. -/
theorem test_inc :
    seen (exec .inc (running [] [] 0 0)) = some ⟨1, 0, [(0, 0x01)], .running, none, []⟩ ∧
    seen (exec .inc (running [] [(0, 0x7F)] 0 0)) = some ⟨1, 0, [(0, 0x80)], .running, none, []⟩ ∧
    seen (exec .inc (running [] [(0, 0xFE)] 0 0)) = some ⟨1, 0, [(0, 0xFF)], .running, none, []⟩ ∧
    seen (exec .inc (running [] [(0, 0xFF)] 0 0)) = some ⟨1, 0, [], .running, none, []⟩ := by decide

/-- AR11: no carry into a neighbour. -/
theorem test_inc_neighbours :
    seen (exec .inc (running [] [(4, 9), (5, 0xFF), (6, 9)] 0 5)) =
      some ⟨1, 5, [(4, 9), (6, 9)], .running, none, []⟩ := by decide

/-- AR5 to AR8. -/
theorem test_dec :
    seen (exec .dec (running [] [] 0 0)) = some ⟨1, 0, [(0, 0xFF)], .running, none, []⟩ ∧
    seen (exec .dec (running [] [(0, 0x01)] 0 0)) = some ⟨1, 0, [], .running, none, []⟩ ∧
    seen (exec .dec (running [] [(0, 0x80)] 0 0)) = some ⟨1, 0, [(0, 0x7F)], .running, none, []⟩ ∧
    seen (exec .dec (running [] [(0, 0xFF)] 0 0)) = some ⟨1, 0, [(0, 0xFE)], .running, none, []⟩ := by
  decide

/-- IO1 to IO3. -/
theorem test_out :
    seen (exec .out (running [] [(0, 0x40)] 22 0)) =
      some ⟨23, 0, [(0, 0x40)], .running, none, [.out 0x40]⟩ ∧
    seen (exec .out (running [] [] 0 0)) = some ⟨1, 0, [], .running, none, [.out 0x00]⟩ ∧
    seen (exec .out (running [] [(0, 0xFF)] 0 0)) =
      some ⟨1, 0, [(0, 0xFF)], .running, none, [.out 0xFF]⟩ := by decide

/-- IO4. -/
theorem test_inp :
    seen (exec .inp (running [] [(0, 7)] 3 0)) =
      some ⟨3, 0, [(0, 7)], .awaitingInput, none, [.awaitBegin]⟩ := by decide

/-- PTR4, PTR6, PTR7. -/
theorem test_left :
    seen (exec .left (running [] [] 3 1)) = some ⟨4, 0, [], .running, none, []⟩ ∧
    seen (exec .left (running [] [] 0 29999)) = some ⟨1, 29998, [], .running, none, []⟩ ∧
    seen (exec .left (running [] [(4, 7), (5, 200)] 0 5)) =
      some ⟨1, 4, [(4, 7), (5, 200)], .running, none, []⟩ := by decide

/-- PTR5. -/
theorem test_left_underflow :
    seen (exec .left (running [] [] 3 0)) =
      some ⟨3, 0, [], .fatal, some .tapeUnderflow, [.fatal .tapeUnderflow]⟩ := by decide

/-- PTR1, PTR2. -/
theorem test_right :
    seen (exec .right (running [] [] 0 0)) = some ⟨1, 1, [], .running, none, []⟩ ∧
    seen (exec .right (running [] [] 9 29998)) = some ⟨10, 29999, [], .running, none, []⟩ := by decide

/-- PTR3. -/
theorem test_right_overflow :
    seen (exec .right (running [] [] 9 29999)) =
      some ⟨9, 29999, [], .fatal, some .tapeOverflow, [.fatal .tapeOverflow]⟩ := by decide

/-- LP1, LP2, LP5, LP6. -/
theorem test_jz :
    seen (exec .jz (running [0x5B, 0x5D] [] 0 0)) = some ⟨2, 0, [], .running, none, []⟩ ∧
    seen (exec .jz (running [0x5B, 0x5D] [(0, 1)] 0 0)) =
      some ⟨1, 0, [(0, 1)], .running, none, []⟩ ∧
    seen (exec .jz (running [0x5B, 0x5B, 0x5D, 0x5D] [] 0 0)) =
      some ⟨4, 0, [], .running, none, []⟩ ∧
    seen (exec .jz (running [0x5B, 0x5B, 0x5D, 0x5D] [] 1 0)) =
      some ⟨3, 0, [], .running, none, []⟩ := by decide

/-- LP8, LP10. -/
theorem test_jz_past_others :
    seen (exec .jz (running textLp8 [] 0 0)) = some ⟨7, 0, [], .running, none, []⟩ ∧
    seen (exec .jz (running [0x5B, 0x5D, 0x5B, 0x5D] [] 2 0)) =
      some ⟨4, 0, [], .running, none, []⟩ ∧
    matchFwd [0x5B, 0x5D, 0x5B, 0x5D] 0 = some 1 := by decide

/-- LP3, LP4. -/
theorem test_jnz :
    seen (exec .jnz (running [0x5B, 0x5D] [] 1 0)) = some ⟨2, 0, [], .running, none, []⟩ ∧
    seen (exec .jnz (running [0x5B, 0x5D] [(0, 1)] 1 0)) =
      some ⟨1, 0, [(0, 1)], .running, none, []⟩ := by decide

/-- LP7, LP9. -/
theorem test_jnz_nested :
    seen (exec .jnz (running [0x5B, 0x5B, 0x5D, 0x5D] [(0, 0x80)] 3 0)) =
      some ⟨1, 0, [(0, 0x80)], .running, none, []⟩ ∧
    seen (exec .jnz (running textLp8 [(0, 255)] 6 0)) =
      some ⟨1, 0, [(0, 255)], .running, none, []⟩ := by decide

/-- NP1 to NP3, the step. -/
theorem test_nop :
    seen (step (running [0x61] [] 0 0)) = some ⟨1, 0, [], .running, none, []⟩ ∧
    seen (step (running [0x00] [] 0 0)) = some ⟨1, 0, [], .running, none, []⟩ ∧
    seen (step (running [0xFF] [] 0 0)) = some ⟨1, 0, [], .running, none, []⟩ := by decide

/-- The worked pairs of 44_loop.md R147, by both scans and by the table. -/
theorem test_resolver :
    matchFwd textP4 2 = some 15 ∧ matchBwd textP4 15 = some 2 ∧ matchFwd textP4 6 = some 12 ∧
    matchBwd textP4 12 = some 6 ∧ jumpTable textP4 = [(6, 12), (2, 15)] := by decide

/-! ### Commands, the halt step, the signals -/

/-- IO5 to IO7. -/
theorem test_deliver :
    seen (issue (.deliver 0x69) ((running [] [(0, 7)] 3 0).inStatus .awaitingInput)) =
      some ⟨4, 0, [(0, 0x69)], .running, none, [.awaitEnd]⟩ ∧
    seen (issue (.deliver 0x00) ((running [] [(0, 7)] 3 0).inStatus .awaitingInput)) =
      some ⟨4, 0, [], .running, none, [.awaitEnd]⟩ := by decide

/-- IO8 to IO10, CM2 to CM4. -/
theorem test_misuse :
    seen (issue (.deliver 0x41) ((running [] [] 3 0).inStatus .ready)) =
      some ⟨3, 0, [], .ready, none, [.misuse]⟩ ∧
    seen (issue (.deliver 0x41) (running [] [] 3 0)) =
      some ⟨3, 0, [], .running, none, [.misuse]⟩ ∧
    seen (issue (.deliver 0x41) ((running [] [] 3 0).inStatus .halted)) =
      some ⟨3, 0, [], .halted, none, [.misuse]⟩ ∧
    seen (issue .start (running [] [] 3 0)) = some ⟨3, 0, [], .running, none, [.misuse]⟩ ∧
    seen (issue .start ((running [] [] 3 0).inStatus .awaitingInput)) =
      some ⟨3, 0, [], .awaitingInput, none, [.misuse]⟩ ∧
    seen (issue .start ((running [] [] 3 0).inStatus .halted)) =
      some ⟨3, 0, [], .halted, none, [.misuse]⟩ := by decide

/-- IO18, RS5, RS12, CM1. -/
theorem test_reset_and_start :
    seen (issue (.reset [0x2C]) ((running [0x2C] [(0, 7)] 0 0).inStatus .awaitingInput)) =
      some ⟨0, 0, [], .ready, none, []⟩ ∧
    seen (issue (.reset [0x5D]) State.reset) =
      some ⟨0, 0, [], .fatal, some .structuralError, [.fatal .structuralError]⟩ ∧
    seen (issue (.reset [0x5B, 0x5D])
      { State.reset with status := .fatal, err := some .structuralError }) =
      some ⟨0, 0, [], .ready, none, []⟩ ∧
    seen (issue .start State.reset) = some ⟨0, 0, [], .running, none, []⟩ := by decide

/-- CM8 and S10. -/
theorem test_halt :
    seen (step (running [0x61] [] 1 0)) = some ⟨1, 0, [], .halted, none, [.halt]⟩ ∧
    seen (engineStep (freshRun [])) = some ⟨0, 0, [], .halted, none, [.halt]⟩ := by decide

/-- R89 on `,.` (S7), and the result of R24. -/
theorem test_run_and_resume :
    (nextState (runOperation 9 { State.reset with prog := [0x2C, 0x2E] })).map State.result =
      some (some .awaitingInput) ∧
    seen (resumeOperation 65 9 ((running [0x2C, 0x2E] [] 0 0).inStatus .awaitingInput)) =
      some ⟨2, 0, [(0, 65)], .halted, none, [.awaitEnd, .out 65, .halt]⟩ := by decide

/-- The codes of R15, R16, and `awaiting` of R22. -/
theorem test_levels :
    ((running [] [] 0 0).inStatus .awaitingInput).levels =
      { status := 0b010, err := 0b00, awaiting := true } ∧
    ((running [] [] 0 0).raiseFatal .tapeOverflow).levels =
      { status := 0b100, err := 0b11, awaiting := false } := by decide

/-- R179(c): a `Deliver` in the cycle of the accepted `Start` is judged against `Ready`. -/
theorem test_cycle :
    seen (cycle (Pins.mk false [] true true 5 false) State.reset) = some ⟨0, 0, [], .running, none, [.misuse]⟩ := by decide

/-- `prog_addr`: LP8's scan of a taken `[` and LP9's of a taken `]`, a fall-through, and RS8's validation. -/
theorem test_prog_addr :
    (running textLp8 [] 0 0).progReads .engine = [0, 1, 2, 3, 4, 5, 6] ∧
    (running textLp8 [(0, 255)] 6 0).progReads .engine = [6, 5, 4, 3, 2, 1, 0] ∧
    (running textLp8 [] 6 0).progReads .engine = [6] ∧
    (running textLp8 [] 8 0).progReads .engine = [] ∧
    State.reset.progReads (.command (.reset [0x5D, 0x5B])) = [0] ∧
    State.reset.progReads (.command (.reset [0x5B, 0x5D, 0x5D])) = [0, 1, 2] := by decide

/-! ### Where a meaning stops, in states no run reaches -/

theorem test_stops :
    exec .inc (running [] [] 0 30000) = .fault .tapeAddressOutside ∧
    exec .dec (running [] [] 0 30000) = .fault .tapeAddressOutside ∧
    exec .out (running [] [] 0 30000) = .fault .tapeAddressOutside ∧
    exec .jz (running [0x5B] [] 0 30000) = .fault .tapeAddressOutside ∧
    exec .jnz (running [0x5D] [] 0 30000) = .fault .tapeAddressOutside ∧
    exec .jz (running [0x5B] [] 0 0) = .fault .scanLeftProgram ∧
    exec .jnz (running [0x5D] [(0, 1)] 0 0) = .fault .scanLeftProgram ∧
    step (running [] [] 1 0) = .fault .fetchOutsideProgram :=
  ⟨rfl, rfl, rfl, rfl, rfl, rfl, rfl, rfl⟩

/-! ### States that meet the hypotheses of the statements -/

theorem test_wit_DecodeEncodeAgree :
    (Instr.nop 0xFF).wellFormed = true ∧ Instr.jnz.wellFormed = true := by decide

theorem test_wit_ProgramTextRoundTrip :
    ∀ i ∈ [Instr.inc, .nop 0x00, .jz, .nop 0x5C, .jnz], i.wellFormed = true := by decide

theorem test_wit_StepRunsDecodedInstruction :
    (running [0x61, 0x2B] [] 1 0).status = .running ∧
    (running [0x61, 0x2B] [] 1 0).prog[(running [0x61, 0x2B] [] 1 0).pc]? = some 0x2B ∧
    (running [0x61, 0x2B] [] 1 0).host = [] ∧
    ((running [0x61, 0x2B] [] 1 0).setHost [.engine]).host = .engine :: [] := by decide

theorem test_wit_HaltStepAtEndOfText :
    (running [0x61] [] 1 0).status = .running ∧
    (running [0x61] [] 1 0).pc = (running [0x61] [] 1 0).prog.length := by decide

theorem test_wit_PlannedCommandOrHold :
    ((running [] [] 0 0).setHost [.command .start, .engine]).host = .command .start :: [.engine] ∧
    (State.reset.status ≠ .running ∧ State.reset.host = []) := by decide

/-- Also for `DecSubtractsOneModulo256`, `OutEmitsCurrentCell` and `RepeatedArithmeticIsModular`: both
ends of the tape. -/
theorem test_wit_IncAddsOneModulo256 :
    (running [] [(0, 0xFF), (29999, 0xFF)] 0 0).dp < 30000 ∧
    (running [] [(0, 0xFF), (29999, 0xFF)] 0 29999).dp < 30000 ∧
    Memory.wf (running [] [(0, 0xFF), (29999, 0xFF)] 0 0).tape = true := by decide

theorem test_wit_LeftMovesOrUnderflows :
    (running [] [] 0 1).dp ≠ 0 ∧ (running [] [] 0 0).dp = 0 := by decide

theorem test_wit_RightMovesOrOverflows :
    (running [] [] 0 29998).dp + 1 < 30000 ∧ 30000 ≤ (running [] [] 0 29999).dp + 1 := by decide

theorem test_wit_JzFallsThroughOrJumpsPast :
    (running textLp8 [(29999, 1)] 2 29999).dp < 30000 ∧
    textLp8[2]? = some codeJz ∧ wellFormed textLp8 = true ∧
    Memory.read (running textLp8 [(29999, 1)] 2 29999).tape 29999 ≠ 0x00 ∧
    Memory.read (running textLp8 [(29999, 1)] 2 0).tape 0 = 0x00 := by decide

theorem test_wit_JnzFallsThroughOrJumpsBack :
    (running textLp8 [(29999, 1)] 6 29999).dp < 30000 ∧
    textLp8[6]? = some codeJnz ∧ wellFormed textLp8 = true ∧
    Memory.read (running textLp8 [(29999, 1)] 6 0).tape 0 = 0x00 ∧
    Memory.read (running textLp8 [(29999, 1)] 6 29999).tape 29999 ≠ 0x00 := by decide

theorem test_wit_NopOnlyAdvances :
    (0x5C : Byte) ∉ [0x2B, 0x2C, 0x2D, 0x2E, 0x3C, 0x3E, 0x5B, 0x5D] := by decide

/-- A storing form, a register form, a suspending form, a faulting form. -/
theorem test_wit_InstructionFrames :
    Memory.wf (running [] [(0, 1)] 0 0).tape = true ∧
    (∃ t, exec .inc (running [] [(0, 1)] 0 0) = .next t) ∧
    (∃ t, exec .right (running [] [(0, 1)] 0 0) = .next t) ∧
    (∃ t, exec .inp (running [] [(0, 1)] 0 0) = .next t) ∧
    ∃ t, exec .left (running [] [(0, 1)] 0 0) = .next t :=
  ⟨by decide, ⟨_, rfl⟩, ⟨_, rfl⟩, ⟨_, rfl⟩, ⟨_, rfl⟩⟩

/-- Also for `MisplacedCommandIsRejected`. -/
theorem test_wit_StartRunsReadyEngine :
    State.reset.status = .ready ∧ (running [] [] 0 0).status ≠ .ready ∧
    (running [] [] 0 0).status ≠ .awaitingInput := by decide

theorem test_wit_DeliverCompletesInput :
    ((running [0x2C] [(3, 7)] 0 29999).inStatus .awaitingInput).status = .awaitingInput ∧
    ((running [0x2C] [(3, 7)] 0 29999).inStatus .awaitingInput).dp < 30000 ∧
    Memory.wf ((running [0x2C] [(3, 7)] 0 29999).inStatus .awaitingInput).tape = true := by decide

/-- Also for `JumpTableEqualsScans`. -/
theorem test_wit_FreshRunStartsAtZero : wellFormed textP4 = true := by decide

theorem test_wit_UnderflowOnlyByLeftAtZero :
    ∃ t, step (running [0x3C] [] 0 0) = .next t ∧
      .fatal .tapeUnderflow ∈ newEvents (running [0x3C] [] 0 0) t := ⟨_, rfl, by decide⟩

theorem test_wit_OverflowOnlyByRightAtLastCell :
    (running [0x3E] [] 0 29999).dp < 30000 ∧ ∃ t, step (running [0x3E] [] 0 29999) = .next t ∧
      .fatal .tapeOverflow ∈ newEvents (running [0x3E] [] 0 29999) t := ⟨by decide, _, rfl, by decide⟩

/-- Both clauses: the engine's turn, and a planned `Start`. -/
theorem test_wit_FatalIsAbsorbing :
    ((running [0x3C] [] 0 0).raiseFatal .tapeUnderflow).status = .fatal ∧
    ((running [0x3C] [] 0 0).raiseFatal .tapeUnderflow).resetNext = false ∧
    ((running [0x3C] [] 0 0).raiseFatal .tapeUnderflow).engineNext = true ∧
    (((running [0x3C] [] 0 0).raiseFatal .tapeUnderflow).setHost [.command .start]).resetNext = false ∧
    (((running [0x3C] [] 0 0).raiseFatal .tapeUnderflow).setHost [.command .start]).engineNext =
      false := by decide

/-- A `Reset`, and each of the edges. -/
theorem test_wit_StatusFollowsLifecycleGraph :
    (∃ t, step (State.reset.setHost [.command (.reset [0x5D])]) = .next t ∧ t.status = .fatal) ∧
    (∃ t, step (State.reset.setHost [.command .start]) = .next t ∧ t.status = .running) ∧
    (∃ t, step (running [0x2C] [] 0 0) = .next t ∧ t.status = .awaitingInput) ∧
    (∃ t, step (((running [0x2C] [] 0 0).inStatus .awaitingInput).setHost [.command (.deliver 5)]) =
      .next t ∧ t.status = .running) ∧
    (∃ t, step (running [0x2C] [] 1 0) = .next t ∧ t.status = .halted) ∧
    (∃ t, step (running [0x3C] [] 0 0) = .next t ∧ t.status = .fatal) ∧
    ∃ t, step (running [0x3E] [] 0 29999) = .next t ∧ t.status = .fatal :=
  ⟨⟨_, rfl, rfl⟩, ⟨_, rfl, rfl⟩, ⟨_, rfl, rfl⟩, ⟨_, rfl, rfl⟩, ⟨_, rfl, rfl⟩, ⟨_, rfl, rfl⟩,
   ⟨_, rfl, rfl⟩⟩

/-- Also for `TraceOnlyGrows`. -/
theorem test_wit_ProgramFixedBetweenResets :
    (running [0x2B] [] 0 0).resetNext = false ∧ ∃ t, step (running [0x2B] [] 0 0) = .next t :=
  ⟨by decide, _, rfl⟩

theorem test_wit_DataPointerMovedOnlyByPointerInstructions :
    (running [0x3C] [] 0 29999).resetNext = false ∧ (running [0x3E] [] 0 29998).resetNext = false ∧
    (∃ t, step (running [0x3C] [] 0 29999) = .next t ∧ t.dp ≠ (running [0x3C] [] 0 29999).dp) ∧
    ∃ t, step (running [0x3E] [] 0 29998) = .next t ∧ t.dp ≠ (running [0x3E] [] 0 29998).dp :=
  ⟨by decide, by decide, ⟨_, rfl, by decide⟩, _, rfl, by decide⟩

theorem test_wit_TapeWrittenOnlyAtDataPointer :
    Memory.wf (running [0x2B] [] 0 0).tape = true ∧ (running [0x2B] [] 0 0).resetNext = false ∧
    (∃ t, step (running [0x2B] [] 0 0) = .next t ∧
      Memory.read t.tape 0 ≠ Memory.read (running [0x2B] [] 0 0).tape 0) ∧
    ∃ t, step (((running [0x2C] [] 0 0).inStatus .awaitingInput).setHost [.command (.deliver 5)]) =
      .next t ∧ Memory.read t.tape 0 ≠ Memory.read (running [0x2C] [] 0 0).tape 0 :=
  ⟨by decide, by decide, ⟨_, rfl, by decide⟩, _, rfl, by decide⟩

theorem test_wit_OutExactlyOncePerOutInstruction :
    (∃ t, step (running [0x2E] [] 0 0) = .next t ∧ (running [0x2E] [] 0 0).engineNext = true ∧
      (running [0x2E] [] 0 0).status = .running ∧
      (running [0x2E] [] 0 0).prog[(running [0x2E] [] 0 0).pc]? = some codeOut) ∧
    ∃ t, step (running [0x2B] [] 0 0) = .next t ∧
      (running [0x2B] [] 0 0).prog[(running [0x2B] [] 0 0).pc]? ≠ some codeOut :=
  ⟨⟨_, rfl, by decide⟩, _, rfl, by decide⟩

/-- Both edges, and the `Reset` that drops the level without an event. -/
theorem test_wit_AwaitingEdgesAreNotifierEvents :
    (∃ t, step (running [0x2C] [] 0 0) = .next t ∧ t.awaiting = true) ∧
    (∃ t, step (((running [0x2C] [] 0 0).inStatus .awaitingInput).setHost [.command (.deliver 5)]) =
      .next t ∧ t.awaiting = false) ∧
    ∃ t, step (((running [0x2C] [] 0 0).inStatus .awaitingInput).setHost [.command (.reset [])]) =
      .next t ∧ t.awaiting = false :=
  ⟨⟨_, rfl, by decide⟩, ⟨_, rfl, by decide⟩, _, rfl, by decide⟩

/-- A running state that meets the invariants; also for `EveryStepKeepsEngineInvariant`,
`InvariantStatesNeverStop`, `PointersFitTheirRegisters`, `EveryCycleKeepsEngineInvariant` and
`PlacedWordRunsNext`. -/
theorem test_wit_EngineInv :
    EngineInv (running textP4 [(29999, 1)] 6 29999) ∧
    ∃ t, step (running textP4 [(29999, 1)] 6 29999) = .next t := by
  refine ⟨?_, _, rfl⟩
  constructor <;> first | decide | exact fun h => nomatch h

theorem test_wit_EveryStepKeepsTraceLifecycle :
    lifeOf ((running [0x2E] [] 0 0).note (.command .start)).trace = some (.running, none) ∧
    ∃ t, step ((running [0x2E] [] 0 0).note (.command .start)) = .next t := ⟨by decide, _, rfl⟩

theorem test_wit_CanonicalTapesAreEqualData :
    Memory.wf [(0, 1), (29999, 255)] = true ∧
    Memory.wf (Memory.write (Memory.write [] 29999 255) 0 1) = true ∧
    Memory.write (Memory.write [] 29999 255) 0 1 = [(0, 1), (29999, 255)] := by decide

theorem test_wit_PointerMovesAddUp :
    (∀ i ∈ [Instr.right, .left], i = .left ∨ i = .right) ∧ (running [] [] 0 29998).dp < 30000 ∧
    (running [] [] 0 29998).status ≠ .fatal ∧
    ∃ t, execAll [.right, .left] (running [] [] 0 29998) = .next t ∧ t.status ≠ .fatal :=
  ⟨by decide, by decide, by decide, _, rfl, by decide⟩

theorem test_wit_MatchFwdIsFirstReturnToZero :
    textP4[2]? = some codeJz ∧ matchFwd textP4 2 = some 15 := by decide

theorem test_wit_MatchBwdIsFirstReturnToZero :
    textP4[15]? = some codeJnz ∧ matchBwd textP4 15 = some 2 := by decide

theorem test_wit_ResolverPairsBrackets :
    wellFormed textP4 = true ∧ textP4[6]? = some codeJz ∧ textP4[12]? = some codeJnz := by decide

/-- A pair inside a pair, and two side by side. -/
theorem test_wit_BracketPairsNest :
    (textP4[2]? = some codeJz ∧ textP4[6]? = some codeJz ∧ matchFwd textP4 2 = some 15 ∧
      matchFwd textP4 6 = some 12) ∧
    matchFwd [0x5B, 0x5D, 0x5B, 0x5D] 0 = some 1 ∧ matchFwd [0x5B, 0x5D, 0x5B, 0x5D] 2 = some 3 := by
  decide

/-- `a+,b.` and what is left of it; also for `TextSimulatesErasedText`. -/
theorem test_wit_ErasedTextSimulatesText :
    (∃ t, drive 9 [7] (freshRun [0x61, 0x2B, 0x2C, 0x62, 0x2E]) = .next t ∧
      eventsOf t.trace = [.awaitBegin, .awaitEnd, .out 7, .halt]) ∧
    eraseNops [0x61, 0x2B, 0x2C, 0x62, 0x2E] = [0x2B, 0x2C, 0x2E] ∧
    ∃ t, drive 7 [7] (freshRun [0x2B, 0x2C, 0x2E]) = .next t ∧
      eventsOf t.trace = [.awaitBegin, .awaitEnd, .out 7, .halt] :=
  ⟨⟨_, rfl, by decide⟩, by decide, _, rfl, by decide⟩

theorem test_wit_RunLoopIsIteratedStep : (running [0x2B] [] 0 0).host = [] := rfl

theorem test_wit_SimultaneousCommandsAreOrderIndependent :
    State.reset.dp < 30000 ∧ State.reset.status = .ready ∧
    ((running [0x2C] [] 0 29999).inStatus .awaitingInput).dp < 30000 ∧
    (running [0x2C] [] 0 29999).status ≠ .ready := by decide

/-- The two clauses: a `Reset`, and both commands rejected. -/
theorem test_wit_SignalPriorityInOneCycle :
    (Pins.mk true [0x2B] true true 5 true).rst = true ∧
    (Pins.mk false [] true true 5 false).rst = false ∧
    (Pins.mk false [] true true 5 false).start = true ∧
    (Pins.mk false [] true true 5 false).inValid = true ∧
    (Pins.mk false [] true true 5 false).engine = false ∧
    (running [] [] 0 0).status ≠ .ready ∧ (running [] [] 0 0).status ≠ .awaitingInput := by decide

theorem test_wit_EnginesShareNothing :
    (∃ sys, systemStep 0 [running [0x2B] [] 0 0, State.reset] = .next sys) ∧ (1 : Nat) ≠ 0 :=
  ⟨⟨_, rfl⟩, by decide⟩

end Sys2Proof.Machine
end

