-- ==== Sys2Proof/Proofs/RegisterWidths.lean ====
section
/-! The widths of 00_scope.md R4 hold what 10_state.md lets the two registers hold. -/

namespace Sys2Proof.Config

/-- `DP_W` bits number every tape cell (R4, R14). -/
theorem tapeLen_le_two_pow_dpW : tapeLen ≤ 2 ^ dpW := by decide

/-- `PC_W` bits hold every value `0 .. L` (R4, R13); the `max 1` only widens the register. -/
theorem lt_two_pow_pcW_of_le {n L : Nat} (h : n ≤ L) : n < 2 ^ pcW L :=
  calc n < L + 1 := Nat.lt_succ_of_le h
    _ ≤ 2 ^ Nat.clog 2 (L + 1) := Nat.le_pow_clog (by decide) _
    _ ≤ 2 ^ pcW L := Nat.pow_le_pow_right (by decide) (Nat.le_max_right _ _)

end Sys2Proof.Config

namespace Sys2Proof.Machine

/-- Settles O40: items 1 and 2 of the invariant, each below the capacity of its register. -/
theorem pointersFitTheirRegisters : Obligations.PointersFitTheirRegisters := fun _ inv =>
  ⟨Nat.lt_of_lt_of_le inv.dp_lt Config.tapeLen_le_two_pow_dpW,
    Config.lt_two_pow_pcW_of_le inv.pc_le⟩

end Sys2Proof.Machine
end

