-- ==== Sys2Proof/Proofs/EngineInvariant.lean ====
section
/-! The invariants of 10_state.md R21 hold after reset and every step keeps them. -/

namespace Sys2Proof.Machine

/-! ### A jump stays in the text -/

theorem scanFwd_lt {cs : Text} {d j k : Nat} (h : scanFwd cs d j = some k) : k < j + cs.length := by
  induction cs generalizing d j with
  | nil => cases h
  | cons c cs ih =>
    rw [scanFwd] at h
    rw [List.length_cons]
    split at h
    · cases h; omega
    · have := ih h; omega

theorem scanBwd_lt {cs : Text} {d k : Nat} (h : scanBwd cs d = some k) : k < cs.length := by
  induction cs generalizing d with
  | nil => cases h
  | cons c cs ih =>
    rw [scanBwd] at h
    rw [List.length_cons]
    split at h
    · cases h; omega
    · have := ih h; omega

theorem matchFwd_lt_length {text : Text} {i j : Nat} (hi : i < text.length)
    (h : matchFwd text i = some j) : j < text.length := by
  have := scanFwd_lt h
  rw [List.length_drop] at this
  omega

theorem matchBwd_lt {text : Text} {i j : Nat} (h : matchBwd text j = some i) : i < j := by
  have := scanBwd_lt h
  rw [List.length_reverse, List.length_take] at this
  omega

/-! ### What the invariant asks of a state, status by status -/

/-- A running state: the items that speak of another status ask nothing. -/
theorem engineInv_of_running {s : State} (hs : s.status = .running) (he : s.err = none)
    (hw : wellFormed s.prog = true) (ht : Memory.wf s.tape = true) (hp : s.pc ≤ s.prog.length)
    (hd : s.dp < Config.tapeLen) : EngineInv s where
  pc_le := hp
  dp_lt := hd
  validated _ := hw
  halted_at_end := by simp [hs]
  awaiting_at_input := by simp [hs]
  underflow_at_left := by simp [hs]
  overflow_at_right := by simp [hs]
  err_none_iff := by simp [hs, he]
  ready_is_fresh := by simp [hs]
  tape_wf := ht

/-- A fresh state over a validated text (R20). -/
theorem engineInv_of_fresh {p : Text} (hw : wellFormed p = true) (trace : List TraceItem)
    (host : List HostMove) : EngineInv ⟨p, [], 0, 0, .ready, none, trace, host⟩ where
  pc_le := Nat.zero_le _
  dp_lt := (by decide : 0 < Config.tapeLen)
  validated _ := hw
  halted_at_end := nofun
  awaiting_at_input := nofun
  underflow_at_left := nofun
  overflow_at_right := nofun
  err_none_iff := by simp
  ready_is_fresh _ := ⟨rfl, rfl, Memory.read_nil⟩
  tape_wf := rfl

/-- The state a rejected text leads to (R203). -/
theorem engineInv_of_rejected (p : Text) (trace : List TraceItem) (host : List HostMove) :
    EngineInv ⟨p, [], 0, 0, .fatal, some .structuralError, trace, host⟩ where
  pc_le := Nat.zero_le _
  dp_lt := (by decide : 0 < Config.tapeLen)
  validated := by simp
  halted_at_end := nofun
  awaiting_at_input := nofun
  underflow_at_left := nofun
  overflow_at_right := nofun
  err_none_iff := by simp
  ready_is_fresh := nofun
  tape_wf := rfl

/-! ### The changes that keep the invariant -/

section
variable {s : State} (inv : EngineInv s) (trace : List TraceItem) (host : List HostMove)
include inv

/-- Neither the trace nor the plan of the host stands in the invariant. -/
theorem EngineInv.with_trace_host : EngineInv { s with trace := trace, host := host } :=
  { inv with }

/-- To run on, from any status but `Fatal`, only the ranges of what is written must be kept. -/
theorem EngineInv.run {status : Status} {tape : Memory} {pc dp : Nat} (hs : s.status ≠ .fatal)
    (hr : status = .running) (ht : Memory.wf tape = true) (hp : pc ≤ s.prog.length)
    (hd : dp < Config.tapeLen) :
    EngineInv { s with
      status := status, tape := tape, pc := pc, dp := dp, trace := trace, host := host } :=
  engineInv_of_running hr (inv.err_none_iff.mpr hs) (inv.validated (.inl hs)) ht hp hd

theorem EngineInv.halt (hs : s.status = .running) (hp : s.pc = s.prog.length) :
    EngineInv { s with status := .halted, trace := trace, host := host } :=
  { inv with
    validated := fun _ => inv.validated (by simp [hs])
    halted_at_end := fun _ => hp
    awaiting_at_input := nofun
    underflow_at_left := nofun
    overflow_at_right := nofun
    err_none_iff := by simp [inv.err_none_iff, hs]
    ready_is_fresh := nofun }

theorem EngineInv.suspend (hs : s.status = .running) (hc : s.prog[s.pc]? = some codeInp) :
    EngineInv { s with status := .awaitingInput, trace := trace, host := host } :=
  { inv with
    validated := fun _ => inv.validated (by simp [hs])
    halted_at_end := nofun
    awaiting_at_input := fun _ => hc
    underflow_at_left := nofun
    overflow_at_right := nofun
    err_none_iff := by simp [inv.err_none_iff, hs]
    ready_is_fresh := nofun }

theorem EngineInv.fault (hs : s.status = .running) {k : FatalKind}
    (hu : k = .tapeUnderflow → s.prog[s.pc]? = some codeLeft ∧ s.dp = 0)
    (ho : k = .tapeOverflow → s.prog[s.pc]? = some codeRight ∧ s.dp = Config.tapeLen - 1) :
    EngineInv { s with status := .fatal, err := some k, trace := trace, host := host } :=
  { inv with
    validated := fun _ => inv.validated (by simp [hs])
    halted_at_end := nofun
    awaiting_at_input := nofun
    underflow_at_left := fun _ hk => hu (Option.some.inj hk)
    overflow_at_right := fun _ hk => ho (Option.some.inj hk)
    err_none_iff := by simp
    ready_is_fresh := nofun }

end

/-! ### Every step -/

/-- An instruction keeps the invariant: it writes the tape at `DP` only, and moves `PC` and `DP` inside
their ranges. -/
theorem InstrEffect.keeps_engineInv {s t : State} {c : Byte} (h : InstrEffect s t c)
    (inv : EngineInv s) (hs : s.status = .running) (hc : s.prog[s.pc]? = some c) : EngineInv t := by
  have hf : s.status ≠ .fatal := by simp [hs]
  have hpc : s.pc < s.prog.length := (List.getElem?_eq_some_iff.mp hc).1
  have hdp := inv.dp_lt
  cases h with
  | inc _ _ ht | dec _ _ ht =>
    exact ht ▸ inv.run _ _ hf hs (Memory.wf_write inv.tape_wf _ hdp) hpc hdp
  | out _ _ ht | jzThrough _ _ ht | jnzThrough _ _ ht | nop _ ht =>
    exact ht ▸ inv.run _ _ hf hs inv.tape_wf hpc hdp
  | inp hi ht => exact ht ▸ inv.suspend _ _ hs (hi ▸ hc)
  | left _ _ ht => exact ht ▸ inv.run _ _ hf hs inv.tape_wf hpc (by omega)
  | right _ hd ht => exact ht ▸ inv.run _ _ hf hs inv.tape_wf hpc hd
  | underflow hi hd ht => exact ht ▸ inv.fault _ _ hs (fun _ => ⟨hi ▸ hc, hd⟩) nofun
  | overflow hi hd ht =>
    exact ht ▸ inv.fault _ _ hs nofun fun _ => ⟨hi ▸ hc, by omega⟩
  | jzTaken _ _ j hj ht =>
    exact ht ▸ inv.run _ _ hf hs inv.tape_wf (matchFwd_lt_length hpc hj) hdp
  | jnzTaken _ _ i hi ht =>
    exact ht ▸ inv.run _ _ hf hs inv.tape_wf ((matchBwd_lt hi).trans hpc) hdp

/-- Settles O37, one case for each thing a step can be. -/
theorem everyStepKeepsEngineInvariant : Obligations.EveryStepKeepsEngineInvariant := by
  intro s t inv h
  cases step_effect h with
  | reset p ms _ _ _ hw ht => exact ht ▸ engineInv_of_fresh hw _ _
  | resetRejected p ms _ _ _ _ ht => exact ht ▸ engineInv_of_rejected p _ _
  | start ms _ _ _ hs ht =>
    exact ht ▸ inv.run _ _ (by simp [hs]) rfl inv.tape_wf inv.pc_le inv.dp_lt
  | startRejected ms _ _ _ _ ht | deliverRejected b ms _ _ _ _ ht | hold _ _ _ ht =>
    exact ht ▸ inv.with_trace_host _ _
  | deliver b ms _ _ _ hs hd ht =>
    have hpc : s.pc < s.prog.length :=
      (List.getElem?_eq_some_iff.mp (inv.awaiting_at_input hs)).1
    exact ht ▸ inv.run _ _ (by simp [hs]) rfl (Memory.wf_write inv.tape_wf b hd) hpc hd
  | halt _ _ hs hp ht => exact ht ▸ inv.halt _ _ hs hp
  | instr c _ _ hs hc hi => exact hi.keeps_engineInv (inv.with_trace_host _ _) hs hc

/-- Settles O36: `State.reset` is fresh over the empty text, which is well formed. -/
theorem resetMeetsEngineInvariant : Obligations.ResetMeetsEngineInvariant :=
  engineInv_of_fresh rfl [] []

end Sys2Proof.Machine
end

