-- ==== Sys2Proof/Proofs/TraceLife.lean ====
section
/-! The trace: what a step appends to it, and that it alone tells the life of the engine (10_state.md
R23, 43_io.md R125). -/

namespace Sys2Proof.Machine

/-! ### What a step appends -/

/-- Every step appends at most a command and one event. -/
theorem step_appends {s t : State} (h : step s = .next t) :
    ∃ xs, t.trace = s.trace ++ xs ∧ xs.length ≤ 2 ∧ (eventsOf xs).length ≤ 1 := by
  cases step_effect h with
  | reset p ms _ _ _ _ ht => exact ⟨[.command (.reset p)], by rw [ht], by simp⟩
  | resetRejected p ms _ _ _ _ ht =>
    exact ⟨[.command (.reset p), .event (.fatal .structuralError)], by rw [ht], by simp⟩
  | start ms _ _ _ _ ht => exact ⟨[.command .start], by rw [ht], by simp⟩
  | startRejected ms _ _ _ _ ht => exact ⟨[.command .start, .event .misuse], by rw [ht], by simp⟩
  | deliver b ms _ _ _ _ _ ht =>
    exact ⟨[.command (.deliver b), .event .awaitEnd], by rw [ht], by simp⟩
  | deliverRejected b ms _ _ _ _ ht =>
    exact ⟨[.command (.deliver b), .event .misuse], by rw [ht], by simp⟩
  | hold _ _ _ ht => exact ⟨[], by simp [ht], by simp⟩
  | halt _ _ _ _ ht => exact ⟨[.event .halt], by rw [ht], by simp⟩
  | instr c _ _ _ _ hi =>
    cases hi with
    | out _ _ ht => exact ⟨[.event (.out (Memory.read s.tape s.dp))], by rw [ht]; rfl, by simp⟩
    | inp _ ht => exact ⟨[.event .awaitBegin], by rw [ht]; rfl, by simp⟩
    | underflow _ _ ht => exact ⟨[.event (.fatal .tapeUnderflow)], by rw [ht]; rfl, by simp⟩
    | overflow _ _ ht => exact ⟨[.event (.fatal .tapeOverflow)], by rw [ht]; rfl, by simp⟩
    | _ => rename_i ht; exact ⟨[], by simp [ht], by simp⟩

/-- Settles O34 by `step_appends`: what is appended is what is new. -/
theorem traceOnlyGrows : Obligations.TraceOnlyGrows := by
  intro s t h
  obtain ⟨xs, hx, hlen, hev⟩ := step_appends h
  exact ⟨⟨xs, hx, hlen⟩, by rwa [newEvents_of_append hx]⟩

/-! ### The life of an engine, read from its trace -/

theorem lifeOf_append (xs ys : List TraceItem) :
    lifeOf (xs ++ ys) = (lifeOf xs).bind fun x => ys.foldlM lifeStep x :=
  List.foldlM_append

/-- `ERR` is `None` outside `Fatal`, of a status and error kind (10_state.md R21, item 7). -/
def ErrOnlyInFatal (x : Status × Option FatalKind) : Prop := x.1 ≠ .fatal → x.2 = none

/-- One entry of a trace changes nothing, clears the error, or enters `Fatal`. -/
theorem lifeStep_cases {x y : Status × Option FatalKind} {i : TraceItem}
    (h : lifeStep x i = some y) : y = x ∨ y.2 = none ∨ y.1 = .fatal := by
  unfold lifeStep at h
  repeat' split at h
  all_goals cases h
  all_goals simp

theorem lifeStep_errOnlyInFatal {x y : Status × Option FatalKind} {i : TraceItem}
    (h : lifeStep x i = some y) (hx : ErrOnlyInFatal x) : ErrOnlyInFatal y := by
  obtain rfl | hn | hf := lifeStep_cases h
  · exact hx
  · exact fun _ => hn
  · exact absurd hf

theorem foldlM_lifeStep_errOnlyInFatal {xs : List TraceItem} {x y : Status × Option FatalKind}
    (h : xs.foldlM lifeStep x = some y) (hx : ErrOnlyInFatal x) : ErrOnlyInFatal y := by
  induction xs generalizing x with
  | nil => cases h; exact hx
  | cons i xs ih =>
    rw [List.foldlM_cons] at h
    obtain ⟨z, hz, hy⟩ := Option.bind_eq_some_iff.mp h
    exact ih hy (lifeStep_errOnlyInFatal hz hx)

theorem lifeOf_errOnlyInFatal {xs : List TraceItem} {y : Status × Option FatalKind}
    (h : lifeOf xs = some y) : ErrOnlyInFatal y :=
  foldlM_lifeStep_errOnlyInFatal h fun _ => rfl

/-- A trace that tells the life of `s` still does after entries that lead from its status and error kind to
those of `t`. -/
theorem lifeOf_of_append {s t : State} {xs : List TraceItem}
    (hs : lifeOf s.trace = some (s.status, s.err)) (ht : t.trace = s.trace ++ xs)
    (hx : xs.foldlM lifeStep (s.status, s.err) = some (t.status, t.err)) :
    lifeOf t.trace = some (t.status, t.err) := by
  rw [ht, lifeOf_append, hs]
  exact hx

/-- Settles O39: each entry a step appends leads from the status and error kind before to those after. -/
theorem everyStepKeepsTraceLifecycle : Obligations.EveryStepKeepsTraceLifecycle := by
  refine ⟨rfl, fun s t hl h => ?_⟩
  have herr : s.status ≠ .fatal → s.err = none := lifeOf_errOnlyInFatal hl
  cases step_effect h with
  | reset p ms _ _ _ _ ht => subst ht; exact lifeOf_of_append hl rfl rfl
  | resetRejected p ms _ _ _ _ ht => subst ht; exact lifeOf_of_append hl rfl rfl
  | start ms _ _ _ hs ht =>
    subst ht; exact lifeOf_of_append hl rfl (by simp [lifeStep, hs, herr])
  | startRejected ms _ _ _ hs ht =>
    subst ht; exact lifeOf_of_append hl rfl (by simp [lifeStep, hs])
  | deliver b ms _ _ _ hs _ ht =>
    subst ht; exact lifeOf_of_append hl rfl (by simp [lifeStep, hs, herr])
  | deliverRejected b ms _ _ _ _ ht => subst ht; exact lifeOf_of_append hl rfl rfl
  | hold _ _ _ ht => subst ht; exact hl
  | halt _ _ hs _ ht => subst ht; exact lifeOf_of_append hl rfl (by simp [lifeStep, hs, herr])
  | instr c _ _ hs _ hi =>
    cases hi with
    | out _ _ ht => subst ht; exact lifeOf_of_append hl rfl (by simp [lifeStep, hs])
    | inp _ ht => subst ht; exact lifeOf_of_append hl rfl (by simp [lifeStep, hs, herr])
    | underflow _ _ ht | overflow _ _ ht =>
      subst ht; exact lifeOf_of_append hl rfl (by simp [lifeStep, hs])
    | _ => rename_i ht; subst ht; exact hl

/-! ### The events of input and output -/

/-- Where the engine steps in `Running` at a character, the step is the meaning of that character. -/
theorem exec_of_step {s t : State} {c : Byte} (h : step s = .next t) (he : s.engineNext = true)
    (hs : s.status = .running) (hc : s.prog[s.pc]? = some c) :
    exec (decode c) (s.setHost s.host.tail) = .next t := by
  obtain ⟨d, ms, hh, _⟩ | ⟨_, hi⟩ := step_cases h
  · simp [engineNext_of_command hh] at he
  · obtain ⟨hn, _⟩ | ⟨_, hp, _⟩ | ⟨_, d, hd, hx⟩ := engineStep_cases hi
    · exact absurd hs hn
    · exact absurd hp (Nat.ne_of_lt (List.getElem?_eq_some_iff.mp hc).1)
    · cases hc.symm.trans hd
      exact hx

/-- Settles O33: the first clause is R120 read through `execOut_eq`; for the second, of all a step can be
only the `.` emits an `Out`. -/
theorem outExactlyOncePerOutInstruction : Obligations.OutExactlyOncePerOutInstruction := by
  intro s t h
  constructor
  · rintro ⟨he, hs, hc⟩
    have hx : execOut (s.setHost s.host.tail) = .next t := exec_of_step h he hs hc
    rw [execOut_eq] at hx
    split at hx
    · cases hx
      simp [newEvents]
    · cases hx
  · intro hno v
    cases step_effect h with
    | instr c he _ hs hc hi =>
      cases hi with
      | out ho => exact absurd ⟨he, hs, ho ▸ hc⟩ hno
      | _ => rename_i ht; subst ht; simp [newEvents]
    | _ => rename_i ht; subst ht; simp [newEvents]

/-- Settles O35: `,` raises the level with `AwaitBegin`, an accepted `Deliver` drops it with `AwaitEnd`, a
`Reset` drops it without an event, and nothing else moves it. -/
theorem awaitingEdgesAreNotifierEvents : Obligations.AwaitingEdgesAreNotifierEvents := by
  intro s t h
  cases step_effect h with
  | reset _ _ _ _ hr _ ht | resetRejected _ _ _ _ hr _ ht =>
    subst ht; simp [newEvents, State.awaiting, hr]
  | start _ _ _ _ hs ht | halt _ _ hs _ ht => subst ht; simp [newEvents, State.awaiting, hs]
  | deliver _ _ _ _ hr hs _ ht => subst ht; simp [newEvents, State.awaiting, hr, hs]
  | startRejected _ _ _ hr _ ht | deliverRejected _ _ _ _ hr _ ht | hold _ hr _ ht =>
    subst ht; simp [newEvents, State.awaiting, hr]
  | instr c _ _ hs _ hi =>
    cases hi with
    | inp _ ht => subst ht; simp [newEvents, State.awaiting, hs]
    | _ => rename_i ht; subst ht; simp [newEvents, State.awaiting, hs]

end Sys2Proof.Machine
end

