-- ==== Sys2Proof/Proofs/Frames.lean ====
section
/-! What the instructions and the steps leave unchanged (10_state.md R11 to R18). -/

namespace Sys2Proof.Machine

/-! ### Instructions -/

/-- Settles O17, instruction by instruction. Only `+` and `-` store, and `Memory.read_write` says which
cell; the two faults are those the statement leaves out. -/
theorem instructionFrames : Obligations.InstructionFrames := by
  intro i s t hm h
  have hread : ∀ v a, a ≠ cellAddress s →
      Memory.read (Memory.write s.tape s.dp v) a = Memory.read s.tape a :=
    fun v a ha => (Memory.read_write hm s.dp v a).trans (if_neg ha)
  rcases exec_cases h with ⟨rfl, _, rfl⟩ | ⟨rfl, _, rfl⟩ | ⟨rfl, _, rfl⟩ | ⟨rfl, rfl⟩ | ⟨rfl, hd, rfl⟩ |
    ⟨rfl, _, rfl⟩ | ⟨rfl, _, rfl⟩ | ⟨rfl, hd, rfl⟩ | ⟨rfl, _, _, rfl⟩ | ⟨rfl, _, _, j, _, rfl⟩ |
    ⟨rfl, _, _, rfl⟩ | ⟨rfl, _, _, j, _, rfl⟩ | ⟨⟨c, rfl⟩, rfl⟩
  · simpa using hread (cellPlusOne (Memory.read s.tape s.dp))
  · simpa using hread (cellMinusOne (Memory.read s.tape s.dp))
  · simp
  · simp
  · simp [hd]
  · simp
  · simp
  · have hge : 30000 ≤ s.dp + 1 := Nat.le_of_not_lt hd
    simp [hge]
  all_goals simp

/-! ### Steps -/

/-- Only `<` and `>` move `DP`, by exactly one. -/
theorem InstrEffect.dp_cases {s t : State} {c : Byte} (h : InstrEffect s t c) :
    t.dp = s.dp ∨ (c = codeLeft ∧ t.dp + 1 = s.dp) ∨ (c = codeRight ∧ t.dp = s.dp + 1) := by
  cases h with
  | left hc hd ht =>
    exact .inr (.inl ⟨hc, by rw [ht]; exact Nat.sub_add_cancel (Nat.pos_of_ne_zero hd)⟩)
  | right hc _ ht => exact .inr (.inr ⟨hc, by rw [ht]⟩)
  | _ => rename_i ht; exact .inl (by rw [ht])

/-- Only `+` and `-` write the tape, at the current cell. -/
theorem InstrEffect.tape_cases {s t : State} {c : Byte} (h : InstrEffect s t c) :
    t.tape = s.tape ∨ ((c = codeInc ∨ c = codeDec) ∧ ∃ v, t.tape = Memory.write s.tape s.dp v) := by
  cases h with
  | inc hc _ ht => exact .inr ⟨.inl hc, _, by rw [ht]⟩
  | dec hc _ ht => exact .inr ⟨.inr hc, _, by rw [ht]⟩
  | _ => rename_i ht; exact .inl (by rw [ht])

/-- An instruction suspends, faults or leaves the status alone. -/
theorem InstrEffect.status_cases {s t : State} {c : Byte} (h : InstrEffect s t c) :
    t.status = s.status ∨ (c = codeInp ∧ t.status = .awaitingInput) ∨
    ((c = codeLeft ∨ c = codeRight) ∧ t.status = .fatal) := by
  cases h with
  | inp hc ht => exact .inr (.inl ⟨hc, by rw [ht]⟩)
  | underflow hc _ ht => exact .inr (.inr ⟨.inl hc, by rw [ht]⟩)
  | overflow hc _ ht => exact .inr (.inr ⟨.inr hc, by rw [ht]⟩)
  | _ => rename_i ht; exact .inl (by rw [ht])

theorem InstrEffect.prog_eq {s t : State} {c : Byte} (h : InstrEffect s t c) : t.prog = s.prog := by
  cases h <;> (rename_i ht; rw [ht])

/-- Settles O30: no instruction and no command but `Reset` writes the text. -/
theorem programFixedBetweenResets : Obligations.ProgramFixedBetweenResets := by
  intro s t hno h
  cases step_effect h with
  | reset _ _ _ _ hr | resetRejected _ _ _ _ hr => simp [hno] at hr
  | instr c _ _ _ _ hi => exact hi.prog_eq
  | _ => rename_i ht; rw [ht]

/-- Settles O31 by `InstrEffect.dp_cases`; no command but `Reset` touches `DP`. -/
theorem dataPointerMovedOnlyByPointerInstructions :
    Obligations.DataPointerMovedOnlyByPointerInstructions := by
  intro s t hno h hne
  cases step_effect h with
  | reset _ _ _ _ hr | resetRejected _ _ _ _ hr => simp [hno] at hr
  | instr c he _ hs hc hi =>
    obtain hd | ⟨rfl, hd⟩ | ⟨rfl, hd⟩ := hi.dp_cases
    · exact absurd hd hne
    · exact ⟨he, hs, .inl ⟨hc, hd⟩⟩
    · exact ⟨he, hs, .inr ⟨hc, hd⟩⟩
  | _ => rename_i ht; exact absurd (by rw [ht]) hne

/-- A cell that reads differently after a write is the cell written. -/
theorem Memory.eq_of_read_write_ne {m : Memory} {a b : Nat} {v : Byte} (hm : Memory.wf m = true)
    (h : Memory.read (Memory.write m a v) b ≠ Memory.read m b) : b = a := by
  by_contra hb
  exact h (by rw [Memory.read_write hm, if_neg hb])

/-- Settles O32: only `InstrEffect.tape_cases` and an accepted `Deliver` write, both at `DP`. -/
theorem tapeWrittenOnlyAtDataPointer : Obligations.TapeWrittenOnlyAtDataPointer := by
  intro s t a hm hno h hne
  cases step_effect h with
  | reset _ _ _ _ hr | resetRejected _ _ _ _ hr => simp [hno] at hr
  | deliver b ms hh _ _ hs _ ht =>
    subst ht
    obtain rfl := Memory.eq_of_read_write_ne hm hne
    exact ⟨rfl, .inr ⟨hs, b, ms, hh, by rw [Memory.read_write hm, if_pos rfl]⟩⟩
  | instr c he _ hs hc hi =>
    obtain ht | ⟨hcode, v, ht⟩ := hi.tape_cases
    · exact absurd (by rw [ht]; rfl) hne
    · rw [ht] at hne
      refine ⟨Memory.eq_of_read_write_ne hm hne, .inl ⟨he, hs, ?_⟩⟩
      rw [hc]
      exact hcode.imp (congrArg some) (congrArg some)
  | _ => rename_i ht; exact absurd (by rw [ht]) hne

/-- Settles O29: each command and the halt step has its own edge, and `InstrEffect.status_cases` gives
those of the instructions. -/
theorem statusFollowsLifecycleGraph : Obligations.StatusFollowsLifecycleGraph := by
  intro s t h
  cases step_effect h with
  | reset p ms _ _ hr _ ht => exact ⟨fun _ => .inl (by rw [ht]), by simp [hr]⟩
  | resetRejected p ms _ _ hr _ ht => exact ⟨fun _ => .inr (by rw [ht]), by simp [hr]⟩
  | start ms hh _ hr hs ht =>
    exact ⟨by simp [hr], fun _ _ => .inl ⟨hs, by rw [ht], ms, hh⟩⟩
  | deliver b ms hh _ hr hs _ ht =>
    exact ⟨by simp [hr], fun _ _ => .inr (.inr (.inl ⟨hs, by rw [ht], b, ms, hh⟩))⟩
  | halt he hr hs hp ht =>
    exact ⟨by simp [hr], fun _ _ => .inr (.inr (.inr (.inl ⟨hs, by rw [ht], he, hp⟩)))⟩
  | instr c he hr hs hc hi =>
    refine ⟨by simp [hr], fun _ hne => ?_⟩
    obtain ht | ⟨rfl, ht⟩ | ⟨hcode, ht⟩ := hi.status_cases
    · exact absurd ht hne
    · exact .inr (.inl ⟨hs, ht, he, hc⟩)
    · rw [hc]
      exact .inr (.inr (.inr (.inr ⟨hs, ht, he, hcode.imp (congrArg some) (congrArg some)⟩)))
  | startRejected _ _ _ hr _ ht | deliverRejected _ _ _ _ hr _ ht | hold _ hr _ ht =>
    exact ⟨by simp [hr], fun _ hne => absurd (by rw [ht]) hne⟩

end Sys2Proof.Machine
end

