-- ==== Sys2Proof/Proofs/CanonicalTape.lean ====
section
/-! The canonical form of the tape is unique (log 11). -/

namespace Sys2Proof.Machine

/-- The first cell a canonical tape lists is non-zero, so no canonical tape with the same cells begins
after it. -/
theorem Memory.le_of_read_eq {m m' : Memory} {lo b b' : Nat} {w : Byte}
    (hm : Memory.wfFrom lo ((b, w) :: m) = true) (hm' : Memory.wfFrom b' m' = true)
    (h : ∀ a, Memory.read ((b, w) :: m) a = Memory.read m' a) : b' ≤ b := by
  obtain ⟨_, _, hw, _⟩ := (Memory.wfFrom_cons ..).mp hm
  by_contra hlt
  apply hw
  calc w = Memory.read ((b, w) :: m) b := by rw [Memory.read_cons, if_pos rfl]
    _ = Memory.read m' b := h b
    _ = 0#8 := Memory.read_of_lt hm' (Nat.lt_of_not_le hlt)

/-- Without their common first entry two canonical tapes with equal cells still have equal cells. -/
theorem Memory.read_eq_of_read_cons_eq {m m' : Memory} {b : Nat} {w w' : Byte}
    (hm : Memory.wfFrom (b + 1) m = true) (hm' : Memory.wfFrom (b + 1) m' = true)
    (h : ∀ a, Memory.read ((b, w) :: m) a = Memory.read ((b, w') :: m') a) (a : Nat) :
    Memory.read m a = Memory.read m' a := by
  by_cases hab : a = b
  · have hlt : a < b + 1 := by omega
    rw [Memory.read_of_lt hm hlt, Memory.read_of_lt hm' hlt]
  · have := h a
    rwa [Memory.read_cons, Memory.read_cons, if_neg hab, if_neg hab] at this

theorem Memory.eq_of_read_eq {m m' : Memory} {lo : Nat} (hm : Memory.wfFrom lo m = true)
    (hm' : Memory.wfFrom lo m' = true) (h : ∀ a, Memory.read m a = Memory.read m' a) : m = m' := by
  induction m generalizing m' lo with
  | nil =>
    cases m' with
    | nil => rfl
    | cons c' m' =>
      exact absurd (Memory.le_of_read_eq hm' (b' := c'.1 + 1) rfl fun a => (h a).symm) (by omega)
  | cons c m ih =>
    obtain ⟨b, w⟩ := c
    cases m' with
    | nil => exact absurd (Memory.le_of_read_eq hm (b' := b + 1) rfl h) (by omega)
    | cons c' m' =>
      obtain ⟨b', w'⟩ := c'
      obtain ⟨hlo, hb, hw, hmt⟩ := (Memory.wfFrom_cons ..).mp hm
      obtain ⟨hlo', hb', hw', hmt'⟩ := (Memory.wfFrom_cons ..).mp hm'
      have hle : b' ≤ b := Memory.le_of_read_eq hm
        ((Memory.wfFrom_cons ..).mpr ⟨Nat.le_refl _, hb', hw', hmt'⟩) h
      have hge : b ≤ b' := Memory.le_of_read_eq hm'
        ((Memory.wfFrom_cons ..).mpr ⟨Nat.le_refl _, hb, hw, hmt⟩) fun a => (h a).symm
      obtain rfl := Nat.le_antisymm hle hge
      have hv : w = w' := by simpa [Memory.read_cons] using h b'
      rw [hv, ih hmt hmt' (Memory.read_eq_of_read_cons_eq hmt hmt' h)]

/-- Settles O41: the canonical form starts at address 0. -/
theorem canonicalTapesAreEqualData : Obligations.CanonicalTapesAreEqualData :=
  fun _ _ => Memory.eq_of_read_eq

end Sys2Proof.Machine
end

