-- ==== Sys2Proof/Proofs/ResetAndCodes.lean ====
section
/-! The state after a `Reset`, and the codes of the two status levels. -/

namespace Sys2Proof.Machine

/-- Settles O24: the two outcomes of the validation, each with all fields written out. -/
theorem resetSetsEveryItem : Obligations.ResetSetsEveryItem := by
  intro s text
  refine ⟨?_, Memory.read_nil⟩
  cases hw : wellFormed text with
  | true => simp [issue, resetCommand, hw, State.construct, State.note]
  | false =>
    simp [issue, resetCommand, hw, State.construct, State.note, State.raiseFatal, State.setStatus,
      State.setErr, State.emit]

/-- The status a 3-bit code shows (10_state.md R15); the unused codes show none. -/
def Status.ofCode (v : BitVec 3) : Option Status :=
  [Status.ready, .running, .awaitingInput, .halted, .fatal][v.toNat]?

theorem Status.ofCode_code (a : Status) : Status.ofCode a.code = some a := by
  cases a <;> rfl

theorem Status.code_injective : Function.Injective Status.code := fun a b h =>
  Option.some.inj (by rw [← ofCode_code a, h, ofCode_code b])

/-- The error value a 2-bit code shows (R16). -/
def errOfCode (v : BitVec 2) : Option (Option FatalKind) :=
  [none, some FatalKind.structuralError, some .tapeUnderflow, some .tapeOverflow][v.toNat]?

theorem errOfCode_errCode (k : Option FatalKind) : errOfCode (errCode k) = some k := by
  rcases k with _ | ⟨_ | _ | _⟩ <;> rfl

theorem errCode_injective : Function.Injective errCode := fun k k' h =>
  Option.some.inj (by rw [← errOfCode_errCode k, h, errOfCode_errCode k'])

/-- A code that shows no status is the code of none. -/
theorem Status.code_ne_of_ofCode_none {v : BitVec 3} (hv : Status.ofCode v = none) (a : Status) :
    a.code ≠ v := by
  rintro rfl
  simp [ofCode_code] at hv

/-- Settles O55: a code shows its status, so codes are distinct, and the unused ones show none. -/
theorem statusAndErrCodes : Obligations.StatusAndErrCodes := by
  refine ⟨fun _ _ h => Status.code_injective h, fun _ _ h => errCode_injective h, fun a => ?_,
    fun s => ?_⟩
  · exact ⟨a.code_ne_of_ofCode_none rfl, a.code_ne_of_ofCode_none rfl, a.code_ne_of_ofCode_none rfl⟩
  · calc s.levels.awaiting = true ↔ s.status = .awaitingInput := by
          simp [State.levels, State.awaiting]
      _ ↔ s.status.code = Status.awaitingInput.code := Status.code_injective.eq_iff.symm

end Sys2Proof.Machine
end

