-- ==== Sys2Proof/Proofs/Stops.lean ====
section
/-! Where a meaning stops (20_memory.md R48, 44_loop.md R145; log 7, log 8). -/

namespace Sys2Proof.Machine

/-! ### The two ways to stop -/

/-- A meaning that accesses the tape stops off the tape, and on it where the rest of it stops. -/
theorem tapeAccess_fault_iff {dp : Nat} {x : Host.Outcome State Fault Refusal} {f : Fault} :
    (if dp < Config.tapeLen then x else .fault .tapeAddressOutside) = .fault f ↔
      (f = .tapeAddressOutside ∧ 30000 ≤ dp) ∨ (dp < 30000 ∧ x = .fault f) := by
  rw [tapeLen_eq]
  by_cases h : dp < 30000
  · simp [h]
  · simp [h, Nat.le_of_not_lt h, eq_comm]

theorem outcome_jumpPast_fault_iff {s : State} {j : Option Nat} {f : Fault} :
    outcome (jumpPast s j) = .fault f ↔ f = .scanLeftProgram ∧ j = none := by
  cases j <;> simp [jumpPast, eq_comm]

theorem outcome_ne_refused (x : Except Fault State) (r : Refusal) : outcome x ≠ .refused r := by
  cases x <;> exact nofun

/-! ### The meanings -/

/-- Every meaning is modelled. -/
theorem exec_ne_refused (i : Instr) (s : State) (r : Refusal) : exec i s ≠ .refused r := by
  cases i with
  | inc | dec | out | jz | jnz => exact outcome_ne_refused _ r
  | left =>
    rw [exec, execLeft_eq]
    split <;> exact nofun
  | right =>
    rw [exec, execRight_eq]
    split <;> exact nofun
  | inp | nop _ => exact nofun

/-- Settles O18, meaning by meaning: the five that access the tape stop off it, and two of them also
where the resolver finds no match; the other four always go on. -/
theorem meaningsStopOnlyOutOfRange : Obligations.MeaningsStopOnlyOutOfRange := by
  refine fun i s => ⟨exec_ne_refused i s, fun f => ?_⟩
  cases i with
  | inc => simp [exec, execInc_eq, tapeAccess_fault_iff]
  | dec => simp [exec, execDec_eq, tapeAccess_fault_iff]
  | out => simp [exec, execOut_eq, tapeAccess_fault_iff]
  | jz =>
    rw [exec, execJz_eq, tapeAccess_fault_iff]
    by_cases hz : Memory.read s.tape s.dp = 0#8
    · simp [hz, outcome_jumpPast_fault_iff, and_left_comm]
    · simp [hz]
  | jnz =>
    rw [exec, execJnz_eq, tapeAccess_fault_iff]
    by_cases hz : Memory.read s.tape s.dp = 0#8
    · simp [hz]
    · simp [hz, outcome_jumpPast_fault_iff, and_left_comm]
  | left =>
    rw [exec, execLeft_eq]
    split <;> simp
  | right =>
    rw [exec, execRight_eq]
    split <;> simp
  | inp => simp [exec, execInp]
  | nop c => simp [exec, execNop]

end Sys2Proof.Machine
end

