-- ==== Sys2Proof/Proofs/Progress.lean ====
section
/-! A step goes on from every state that meets the invariant: the resolver is total on a validated text
(44_loop.md R145(a), (c)), and every access and fetch is in range (20_memory.md R48, R54). -/

namespace Sys2Proof.Machine

/-! ### A validated text by depth -/

/-- One character of a validation that succeeds moves the height of the stack by the character's depth. -/
theorem validateScan_cons_tail {stack : List Byte} {c : Byte} {cs : Text}
    (h : validateScan stack (c :: cs) = true) :
    ∃ stack' : List Byte, (stack'.length : Int) = stack.length + bracketStep c ∧
      validateScan stack' cs = true := by
  rw [validateScan_cons] at h
  by_cases hjz : c = codeJz
  · rw [if_pos hjz] at h
    exact ⟨codeJz :: stack, by simp [hjz], h⟩
  rw [if_neg hjz] at h
  by_cases hjnz : c = codeJnz
  · rw [if_pos hjnz] at h
    cases stack with
    | nil => cases h
    | cons t below =>
      dsimp only at h
      split at h
      · exact ⟨below, by simp [hjnz], h⟩
      · cases h
  · rw [if_neg hjnz] at h
    exact ⟨stack, by simp [bracketStep, hjz, hjnz], h⟩

/-- A text that validates on top of a stack never pops more than the stack holds, and pops all of it. -/
theorem bracketDepth_of_validateScan {stack : List Byte} {cs : Text}
    (h : validateScan stack cs = true) :
    (∀ k, 0 ≤ stack.length + bracketDepth (cs.take k)) ∧ stack.length + bracketDepth cs = 0 := by
  induction cs generalizing stack with
  | nil =>
    obtain rfl : stack = [] := List.isEmpty_iff.mp h
    simp
  | cons c cs ih =>
    obtain ⟨stack', hlen, htail⟩ := validateScan_cons_tail h
    obtain ⟨hpre, hall⟩ := ih htail
    refine ⟨fun k => ?_, by rw [bracketDepth_cons]; omega⟩
    cases k with
    | zero => simp
    | succ k =>
      have := hpre k
      rw [List.take_succ_cons, bracketDepth_cons]
      omega

theorem bracketDepth_take_nonneg {text : Text} (hw : wellFormed text = true) (k : Nat) :
    0 ≤ bracketDepth (text.take k) := by
  simpa using (bracketDepth_of_validateScan hw).1 k

theorem bracketDepth_eq_zero {text : Text} (hw : wellFormed text = true) : bracketDepth text = 0 := by
  simpa using (bracketDepth_of_validateScan hw).2

/-! ### The resolver is total on a validated text -/

/-- A forward scan that leaves the text never brought its counter down to 0. -/
theorem bracketDepth_of_scanFwd_none {cs : Text} {d j : Nat} (hd : 0 < d)
    (h : scanFwd cs d j = none) : 0 < d + bracketDepth cs := by
  induction cs generalizing d j with
  | nil => simpa using hd
  | cons c cs ih =>
    rw [scanFwd] at h
    split at h
    · cases h
    next hne =>
      have := ih (Nat.pos_of_ne_zero hne) h
      rw [bracketDepth_cons]
      rw [depthFwd_cast c hd] at this
      omega

/-- A backward scan that leaves the text never brought its counter down to 0. -/
theorem bracketDepth_of_scanBwd_none {cs : Text} {d : Nat} (hd : 0 < d)
    (h : scanBwd cs d = none) : bracketDepth cs < d := by
  induction cs generalizing d with
  | nil => simpa using hd
  | cons c cs ih =>
    rw [scanBwd] at h
    split at h
    · cases h
    next hne =>
      have := ih (Nat.pos_of_ne_zero hne) h
      rw [bracketDepth_cons]
      rw [depthBwd_cast c hd] at this
      omega

/-- The depth up to and including a character. -/
theorem bracketDepth_take_succ {text : Text} {i : Nat} {c : Byte} (hc : text[i]? = some c) :
    bracketDepth (text.take (i + 1)) = bracketDepth (text.take i) + bracketStep c := by
  simp [List.take_add_one, hc]

/-- R145(a): in a validated text every `[` has its `]`. -/
theorem matchFwd_ne_none {text : Text} {i : Nat} (hw : wellFormed text = true)
    (hc : text[i]? = some codeJz) : matchFwd text i ≠ none := by
  intro hnone
  have hrest : 0 < 1 + bracketDepth (text.drop (i + 1)) :=
    bracketDepth_of_scanFwd_none Nat.one_pos hnone
  have hbefore := bracketDepth_take_nonneg hw i
  have htotal : bracketDepth (text.take (i + 1)) + bracketDepth (text.drop (i + 1)) = 0 := by
    rw [← bracketDepth_append, List.take_append_drop, bracketDepth_eq_zero hw]
  rw [bracketDepth_take_succ hc, bracketStep_jz] at htotal
  omega

/-- R145(c): in a validated text every `]` has its `[`. -/
theorem matchBwd_ne_none {text : Text} {j : Nat} (hw : wellFormed text = true)
    (hc : text[j]? = some codeJnz) : matchBwd text j ≠ none := by
  intro hnone
  have hbefore : bracketDepth (text.take j).reverse < 1 :=
    bracketDepth_of_scanBwd_none Nat.one_pos hnone
  have hupto := bracketDepth_take_nonneg hw (j + 1)
  rw [bracketDepth_reverse] at hbefore
  rw [bracketDepth_take_succ hc, bracketStep_jnz] at hupto
  omega

/-! ### Every move goes on -/

/-- The instruction of a validated text goes on while `DP` is on the tape: neither stop of
`meaningsStopOnlyOutOfRange` is possible. -/
theorem exec_next_of_validated {s : State} {c : Byte} (hw : wellFormed s.prog = true)
    (hd : s.dp < Config.tapeLen) (hc : s.prog[s.pc]? = some c) :
    ∃ t, exec (decode c) s = .next t := by
  obtain ⟨hrefused, hfault⟩ := meaningsStopOnlyOutOfRange (decode c) s
  cases h : exec (decode c) s with
  | next t => exact ⟨t, rfl⟩
  | refused r => exact absurd h (hrefused r)
  | fault f =>
    obtain ⟨-, -, -, -, -, -, hjz, hjnz⟩ := decode_eq_iff c
    obtain ⟨-, hoff, -⟩ | ⟨-, -, ⟨hi, -, hnone⟩ | ⟨hi, -, hnone⟩⟩ := (hfault f).mp h
    · exact absurd hd (Nat.not_lt.mpr hoff)
    · exact absurd hnone (matchFwd_ne_none hw (hjz.mp hi ▸ hc))
    · exact absurd hnone (matchBwd_ne_none hw (hjnz.mp hi ▸ hc))

theorem engineStep_next {s : State} (inv : EngineInv s) : ∃ t, engineStep s = .next t := by
  unfold engineStep
  split
  next hs =>
    split
    next => exact ⟨_, rfl⟩
    next hp =>
      have hlt : s.pc < s.prog.length := lt_of_le_of_ne inv.pc_le hp
      have hc : s.prog[s.pc]? = some s.prog[s.pc] := List.getElem?_eq_getElem hlt
      simp only [instructionStep, fetch, hc]
      exact exec_next_of_validated (inv.validated (.inl (by simp [hs]))) inv.dp_lt hc
  next => exact ⟨s, rfl⟩

/-- A command goes on while `DP` is on the tape, where a `Deliver` stores its byte. -/
theorem issue_next {s : State} (hd : s.dp < Config.tapeLen) (c : Command) :
    ∃ t, issue c s = .next t := by
  cases c with
  | reset p => exact ⟨_, rfl⟩
  | start => exact ⟨_, rfl⟩
  | deliver b =>
    simp only [issue, deliverCommand]
    split
    · rw [completeInput, writeCell_of_lt b (by simpa using hd)]
      exact ⟨_, rfl⟩
    · exact ⟨_, rfl⟩

/-- Settles O38, one case for each head of the host's plan; putting the rest of the plan in place keeps
the invariant. -/
theorem invariantStatesNeverStop : Obligations.InvariantStatesNeverStop := by
  intro s inv
  cases hh : s.host with
  | nil =>
    rw [step_nil hh]
    exact engineStep_next inv
  | cons m ms =>
    have inv' : EngineInv (s.setHost ms) := inv.with_trace_host s.trace ms
    cases m with
    | command c =>
      rw [step_command hh]
      exact issue_next inv'.dp_lt c
    | engine =>
      rw [step_engine hh]
      exact engineStep_next inv'

end Sys2Proof.Machine
end

