-- ==== Sys2Proof/Proofs/Encoding.lean ====
section
/-! The opcode map of 30_encoding.md R62, R63: what its rows match, and decoding and encoding as inverses
of each other on a character and on a whole text. -/

namespace Sys2Proof

/-! ### The rows of the opcode map -/

/-- The eight patterns are the codes a `NOP` does not have, in the same order (R62; 45_nop.md R160). -/
theorem map_pattern_opcodeRows : opcodeRows.map OpcodeRow.pattern = Instr.notNopCodes := rfl

/-- Each row holds the word of a well-formed instruction, and its mask takes all eight bits (R62). -/
theorem opcodeRow_facts : ∀ r ∈ opcodeRows,
    r.mask = BitVec.allOnes 8 ∧ r.pattern = encode r.instr ∧ r.instr.wellFormed = true := by
  decide

theorem OpcodeRow.hits_iff {r : OpcodeRow} (hr : r ∈ opcodeRows) (c : Byte) :
    r.hits c = true ↔ r.pattern = c := by
  obtain ⟨hmask, -, -⟩ := opcodeRow_facts r hr
  rw [OpcodeRow.hits, hmask, BitVec.and_allOnes, beq_iff_eq, eq_comm]

/-- A character that hits no row is what a well-formed `nop` may carry (R63; 45_nop.md R160). -/
theorem wellFormed_nop_iff (c : Byte) :
    (Instr.nop c).wellFormed = true ↔ ∀ r ∈ opcodeRows, r.hits c = false :=
  calc (Instr.nop c).wellFormed = true
    _ ↔ c ∉ opcodeRows.map OpcodeRow.pattern := by
        simp [Instr.wellFormed, map_pattern_opcodeRows]
    _ ↔ ∀ r ∈ opcodeRows, r.pattern ≠ c := by simp only [List.mem_map, not_exists, not_and, ne_eq]
    _ ↔ ∀ r ∈ opcodeRows, r.hits c = false := forall₂_congr fun r hr => by
        rw [← Bool.not_eq_true, OpcodeRow.hits_iff hr]

/-- The patterns differ, so a character hits at most one row. -/
theorem length_filter_hits_le_one (c : Byte) :
    (opcodeRows.filter (fun r => r.hits c)).length ≤ 1 :=
  calc (opcodeRows.filter (fun r => r.hits c)).length
    _ = opcodeRows.countP (fun r => r.pattern == c) := by
        rw [← List.countP_eq_length_filter]
        exact List.countP_congr fun r hr => by rw [OpcodeRow.hits_iff hr, beq_iff_eq]
    _ = (opcodeRows.map OpcodeRow.pattern).count c := by rw [List.count, List.countP_map]; rfl
    _ ≤ 1 := List.nodup_iff_count_le_one.mp (by decide) c

/-! ### One character -/

/-- The decoder answers the instruction of a row the character hits, or a `nop` when there is none. -/
theorem decode_cases (c : Byte) :
    (∃ r ∈ opcodeRows, r.hits c = true ∧ decode c = r.instr) ∨
    ((∀ r ∈ opcodeRows, r.hits c = false) ∧ decode c = .nop c) := by
  unfold decode
  cases h : opcodeRows.find? (fun r => r.hits c) with
  | some r =>
    have hit : r.hits c = true := by simpa using List.find?_some h
    exact .inl ⟨r, List.mem_of_find?_eq_some h, hit, rfl⟩
  | none => exact .inr ⟨by simpa using h, rfl⟩

theorem encode_decode (c : Byte) : encode (decode c) = c := by
  obtain ⟨r, hr, hit, hd⟩ | ⟨-, hd⟩ := decode_cases c
  · obtain ⟨-, hpattern, -⟩ := opcodeRow_facts r hr
    rw [hd, ← hpattern, (OpcodeRow.hits_iff hr c).mp hit]
  · rw [hd, encode]

theorem wellFormed_decode (c : Byte) : (decode c).wellFormed = true := by
  obtain ⟨r, hr, -, hd⟩ | ⟨hno, hd⟩ := decode_cases c
  · obtain ⟨-, -, hwf⟩ := opcodeRow_facts r hr
    rw [hd, hwf]
  · rw [hd, (wellFormed_nop_iff c).mpr hno]

theorem decode_eq_nop_iff (c : Byte) :
    decode c = .nop c ↔ ∀ r ∈ opcodeRows, r.hits c = false := by
  constructor
  · intro h
    exact (wellFormed_nop_iff c).mp (h ▸ wellFormed_decode c)
  · intro hno
    obtain ⟨r, hr, hit, -⟩ | ⟨-, hd⟩ := decode_cases c
    · simp [hno r hr] at hit
    · exact hd

theorem decode_encode {i : Instr} (h : i.wellFormed = true) : decode (encode i) = i := by
  cases i with
  | nop code => exact (decode_eq_nop_iff code).mpr ((wellFormed_nop_iff code).mp h)
  | _ => rfl

/-! ### A whole text -/

theorem decodeProgram_encodeProgram {is : List Instr} (h : ∀ i ∈ is, i.wellFormed = true) :
    decodeProgram (encodeProgram is) = is :=
  calc (is.map encode).map decode
    _ = is.map (decode ∘ encode) := List.map_map
    _ = is.map id := List.map_congr_left fun i hi => decode_encode (h i hi)
    _ = is := List.map_id is

theorem encodeProgram_decodeProgram (text : List Byte) : encodeProgram (decodeProgram text) = text :=
  calc (text.map decode).map encode
    _ = text.map (encode ∘ decode) := List.map_map
    _ = text.map id := List.map_congr_left fun c _ => encode_decode c
    _ = text := List.map_id text

/-! ### The statements of the family -/

/-- Settles O4: each character by itself, since both directions are maps over the list. -/
theorem programTextRoundTrip : Obligations.ProgramTextRoundTrip :=
  ⟨fun _ h => decodeProgram_encodeProgram h,
    fun text => ⟨encodeProgram_decodeProgram text, List.length_map _, fun _ => List.getElem?_map⟩⟩

/-- Settles O3: the row an instruction is read from holds its word. -/
theorem decodeEncodeAgree : Obligations.DecodeEncodeAgree :=
  ⟨fun i rest h => by rw [decodeText, decode_encode h],
    fun c => ⟨wellFormed_decode c, encode_decode c⟩⟩

/-- Settles O1 by running the decoder on the thirteen words. -/
theorem decodeReadsOpcodeCharacters : Obligations.DecodeReadsOpcodeCharacters := by
  unfold Obligations.DecodeReadsOpcodeCharacters
  decide

/-- Settles O2: the count runs the decoder on the 256 codes, the rest follows from the rows. -/
theorem everyOtherCodeIsNop : Obligations.EveryOtherCodeIsNop :=
  ⟨by decide +kernel, fun c => ⟨length_filter_hits_le_one c, decode_eq_nop_iff c⟩⟩

end Sys2Proof
end

