-- ==== Sys2Proof/Proofs/ExecutionLoop.lean ====
section
/-! The execution loop (40_execution_loop.md): which transition the engine takes in each status, the host's
plan before it, and the loop of `run` as iterated steps. -/

namespace Sys2Proof.Machine

/-! ### The engine's own transitions, one equation each -/

/-- R80: outside `Running` the engine has no transition (log 3). -/
theorem engineStep_of_not_running {s : State} (hs : s.status ≠ .running) : engineStep s = .next s :=
  if_neg hs

/-- R82. -/
theorem engineStep_at_end {s : State} (hs : s.status = .running) (hp : s.pc = s.prog.length) :
    engineStep s = .next (haltStep s) := by
  rw [engineStep, if_pos hs, if_pos hp]

/-- R83. -/
theorem engineStep_at_character {s : State} {c : Byte} (hs : s.status = .running)
    (hc : s.prog[s.pc]? = some c) : engineStep s = exec (decode c) s := by
  have hp : s.pc ≠ s.prog.length := Nat.ne_of_lt (List.getElem?_eq_some_iff.mp hc).1
  rw [engineStep, if_pos hs, if_neg hp, instructionStep, fetch, hc]

/-! ### The plan of the host -/

theorem InstrEffect.host_eq {s t : State} {c : Byte} (h : InstrEffect s t c) : t.host = s.host := by
  cases h <;> (rename_i ht; rw [ht])

/-- The engine's own transition leaves the plan of the host alone (log 2). -/
theorem engineStep_host {s t : State} (h : engineStep s = .next t) : t.host = s.host := by
  obtain ⟨-, rfl⟩ | ⟨-, -, rfl⟩ | ⟨-, c, -, hx⟩ := engineStep_cases h
  · rfl
  · rfl
  · exact (exec_effect hx).host_eq

/-! ### Runs with no plan left -/

section
variable {M : Host.Core} {s : M.State} (n : Nat)

theorem core_run_succ_of_next {t : M.State} (h : M.step s = .next t) :
    M.run (n + 1) s = M.run n t := by
  rw [Host.Core.run, h]

theorem core_run_succ_of_fault {f : M.Fault} (h : M.step s = .fault f) :
    M.run (n + 1) s = .fault f := by
  rw [Host.Core.run, h]

theorem core_run_succ_of_refused {r : M.Refusal} (h : M.step s = .refused r) :
    M.run (n + 1) s = .refused r := by
  rw [Host.Core.run, h]

end

/-- Where the engine holds and no plan is left, every number of steps holds. -/
theorem core_run_of_hold {s : State} (hh : s.host = []) (hs : s.status ≠ .running) (n : Nat) :
    Host.Core.run core n s = .next s := by
  have hstep : step s = .next s := (step_nil hh).trans (engineStep_of_not_running hs)
  induction n with
  | zero => rfl
  | succ n ih => exact (core_run_succ_of_next n hstep).trans ih

/-- Settles O54, by induction on the number of steps: while the engine runs, both sides take its
transition; from the first state that is not `Running` on, the machine's step holds. -/
theorem runLoopIsIteratedStep : Obligations.RunLoopIsIteratedStep := by
  intro n
  induction n with
  | zero => exact fun _ _ => rfl
  | succ n ih =>
    intro s hh
    rw [runEngine]
    by_cases hs : s.status = .running
    · rw [if_pos hs]
      cases h : engineStep s with
      | next t =>
        have hrest := ih t ((engineStep_host h).trans hh)
        exact (core_run_succ_of_next n ((step_nil hh).trans h)).trans hrest
      | fault f => exact core_run_succ_of_fault n ((step_nil hh).trans h)
      | refused r => exact core_run_succ_of_refused n ((step_nil hh).trans h)
    · rw [if_neg hs]
      exact core_run_of_hold hh hs (n + 1)

/-! ### Single steps -/

/-- Settles O5: with no plan, and with an engine turn planned, the step is the engine's at that
character. -/
theorem stepRunsDecodedInstruction : Obligations.StepRunsDecodedInstruction := fun s _ hs hc =>
  ⟨fun hh => (step_nil hh).trans (engineStep_at_character hs hc),
    fun ms hh => (step_engine hh).trans (engineStep_at_character (s := s.setHost ms) hs hc)⟩

/-- Settles O6: the empty text is one that ends at `PC` 0. -/
theorem haltStepAtEndOfText : Obligations.HaltStepAtEndOfText :=
  ⟨fun _ hs hp => engineStep_at_end hs hp,
    haltStep (freshRun []), engineStep_at_end rfl rfl, rfl, rfl, rfl⟩

/-- Settles O7, one clause for each head of the plan that keeps the engine from its own transition. -/
theorem plannedCommandOrHold : Obligations.PlannedCommandOrHold :=
  ⟨fun _ _ _ hh => step_command hh,
    fun _ hs => ⟨engineStep_of_not_running hs,
      fun hh => (step_nil hh).trans (engineStep_of_not_running hs)⟩⟩

/-- Settles O19: recording the command does not change the status that R81 judges it by. -/
theorem startRunsReadyEngine : Obligations.StartRunsReadyEngine := by
  intro s
  have hstatus : (s.note (.command .start)).status = s.status := rfl
  constructor
  · intro hs
    rw [issue, startCommand, hstatus, if_pos hs]
    rfl
  · intro hs
    rw [issue, startCommand, hstatus, if_neg hs]
    simp [State.reject, State.emit, State.note]

end Sys2Proof.Machine
end

