-- ==== Sys2Proof/Proofs/PlacedWord.lean ====
section
/-! Placing one word where the engine fetches next (log 6): the placed text is validated, and the word
stands at `PC`. -/

namespace Sys2Proof.Machine

/-! ### The completed text is well formed -/

theorem validateScan_jz (stack : List Byte) (cs : Text) :
    validateScan stack (codeJz :: cs) = validateScan (codeJz :: stack) cs := rfl

theorem validateScan_jnz (stack : List Byte) (cs : Text) :
    validateScan (codeJz :: stack) (codeJnz :: cs) = validateScan stack cs := rfl

/-- Each `[` put before a text is pushed. -/
theorem validateScan_replicate_jz (m k : Nat) (cs : Text) :
    validateScan (List.replicate k codeJz) (List.replicate m codeJz ++ cs) =
      validateScan (List.replicate (k + m) codeJz) cs := by
  induction m generalizing k with
  | zero => rfl
  | succ m ih =>
    rw [List.replicate_succ, List.cons_append, validateScan_jz, ← List.replicate_succ, ih,
      Nat.add_right_comm, Nat.add_assoc]

/-- As many `]` as the stack holds `[` empty it. -/
theorem validateScan_replicate_jnz (k : Nat) :
    validateScan (List.replicate k codeJz) (List.replicate k codeJnz) = true := by
  induction k with
  | zero => rfl
  | succ k ih => rw [List.replicate_succ, List.replicate_succ, validateScan_jnz, ih]

/-- The stack of the validation is the count of `unmatched`: with one more `[` below it for each `]` found
unmatched, the scan gets through the text and leaves the `[` found unmatched. -/
theorem validateScan_of_unmatched {text : Text} {u h u' h' : Nat}
    (hu : unmatched text u h = (u', h')) :
    ∃ d, u' = u + d ∧ ∀ rest, validateScan (List.replicate (h + d) codeJz) (text ++ rest) =
      validateScan (List.replicate h' codeJz) rest := by
  induction text generalizing u h with
  | nil =>
    cases hu
    exact ⟨0, rfl, fun _ => rfl⟩
  | cons c cs ih =>
    rw [unmatched_cons] at hu
    by_cases hjz : c = codeJz
    · subst hjz
      obtain ⟨d, hd, hscan⟩ := ih hu
      refine ⟨d, hd, fun rest => ?_⟩
      rw [List.cons_append, validateScan_jz, ← List.replicate_succ, ← hscan rest,
        Nat.add_right_comm]
    rw [if_neg hjz] at hu
    by_cases hjnz : c = codeJnz
    · subst hjnz
      rw [if_pos rfl] at hu
      cases h with
      | zero =>
        obtain ⟨d, hd, hscan⟩ := ih hu
        exact ⟨d + 1, by omega, fun rest => hscan rest⟩
      | succ h =>
        obtain ⟨d, hd, hscan⟩ := ih hu
        refine ⟨d, hd, fun rest => ?_⟩
        rw [Nat.add_right_comm, List.replicate_succ, List.cons_append, validateScan_jnz, hscan]
    · rw [if_neg hjnz] at hu
      obtain ⟨d, hd, hscan⟩ := ih hu
      refine ⟨d, hd, fun rest => ?_⟩
      rw [List.cons_append, validateScan_cons, if_neg hjz, if_neg hjnz, hscan]

theorem wellFormed_completeText (text : Text) : wellFormed (completeText text) = true := by
  obtain ⟨d, hd, hscan⟩ := validateScan_of_unmatched (text := text) (u := 0) (h := 0) rfl
  have hopen : missingOpen text = 0 + d := hd
  calc validateScan [] (completeText text)
    _ = validateScan (List.replicate (0 + missingOpen text) codeJz)
          (text ++ List.replicate (missingClose text) codeJnz) := by
        rw [completeText, List.append_assoc]
        exact validateScan_replicate_jz _ 0 _
    _ = validateScan (List.replicate (missingClose text) codeJz)
          (List.replicate (missingClose text) codeJnz) := by
        rw [hopen, Nat.zero_add]
        exact hscan _
    _ = true := validateScan_replicate_jnz _

/-! ### The word stands where the engine fetches -/

theorem placeAt_getElem? (text : Text) (a : Nat) (c : Byte) : (placeAt text a c)[a]? = some c := by
  have hlen : a < (text ++ List.replicate (a + 1 - text.length) (0x00 : Byte)).length := by
    rw [List.length_append, List.length_replicate]
    omega
  exact List.getElem?_set_self hlen

/-- The `[` put before a text move its characters up. -/
theorem completeText_getElem? {text : Text} {a : Nat} {c : Byte} (hc : text[a]? = some c) :
    (completeText text)[missingOpen text + a]? = some c := by
  have ha : a < text.length := (List.getElem?_eq_some_iff.mp hc).1
  rw [completeText, List.append_assoc, List.getElem?_append_right (by simp), List.length_replicate,
    Nat.add_sub_cancel_left, List.getElem?_append_left ha, hc]

theorem State.loadWord_fetch (s : State) (c : Byte) :
    (s.loadWord c).prog[(s.loadWord c).pc]? = some c :=
  completeText_getElem? (placeAt_getElem? s.prog s.pc c)

theorem step_loadWord (s : State) (c : Byte) : step (s.loadWord c) = exec (decode c) (s.loadWord c) :=
  (step_nil rfl).trans (engineStep_at_character rfl (s.loadWord_fetch c))

theorem EngineInv.loadWord {s : State} (inv : EngineInv s) (c : Byte) : EngineInv (s.loadWord c) :=
  engineInv_of_running rfl rfl (wellFormed_completeText _) inv.tape_wf
    (Nat.le_of_lt (List.getElem?_eq_some_iff.mp (s.loadWord_fetch c)).1) inv.dp_lt

/-! ### A word of eight bits -/

/-- The character of a word is its low eight bits. -/
theorem tableByte_eight (w : Nat) : tableByte 8 w = BitVec.ofNat 8 w :=
  BitVec.eq_of_toNat_eq (by simp [tableByte])

theorem decodeTableWord_eight (w : Nat) :
    decodeTableWord 8 w = some (decode (BitVec.ofNat 8 w)) := by
  rw [← tableByte_eight]
  rfl

/-- Settles O60: what holds of every placed character holds of the word's. -/
theorem placedWordRunsNext : Obligations.PlacedWordRunsNext := by
  intro s w
  rw [State.withFetchWord, tableByte_eight]
  exact ⟨decodeTableWord_eight w, step_loadWord s _, wellFormed_completeText _,
    fun inv => inv.loadWord _⟩

end Sys2Proof.Machine
end

