-- ==== Sys2Proof/Proofs/Pointer.lean ====
section
/-! The pointer instructions (41_pointer.md): each of them, and what a fault-free run of them adds up to. -/

namespace Sys2Proof.Machine

/-! ### One instruction -/

/-- Settles O12 by `execLeft_eq`. -/
theorem leftMovesOrUnderflows : Obligations.LeftMovesOrUnderflows :=
  ⟨rfl, fun s => ⟨fun hd => (execLeft_eq s).trans (if_neg hd),
    fun hd => (execLeft_eq s).trans (if_pos hd)⟩⟩

/-- Settles O13 by `execRight_eq`. -/
theorem rightMovesOrOverflows : Obligations.RightMovesOrOverflows :=
  ⟨rfl, fun s => ⟨fun hd => (execRight_eq s).trans (if_pos hd),
    fun hd => (execRight_eq s).trans (if_neg (Nat.not_lt_of_le hd))⟩⟩

/-- A pointer instruction that does not end in `Fatal` has moved `DP` by one, on the tape. -/
theorem exec_pointer_moves {i : Instr} {s u : State} (hi : i = .left ∨ i = .right)
    (h : exec i s = .next u) (hu : u.status ≠ .fatal) :
    (i = .left ∧ s.dp ≠ 0 ∧ u = (s.setDp (s.dp - 1)).advance) ∨
    (i = .right ∧ s.dp + 1 < Config.tapeLen ∧ u = (s.setDp (s.dp + 1)).advance) := by
  obtain rfl | rfl := hi
  · rw [exec, execLeft_eq] at h
    split at h
    case isTrue => cases h; exact absurd rfl hu
    case isFalse hd => cases h; exact .inl ⟨rfl, hd, rfl⟩
  · rw [exec, execRight_eq] at h
    split at h
    case isTrue hd => cases h; exact .inr ⟨rfl, hd, rfl⟩
    case isFalse => cases h; exact absurd rfl hu

/-! ### Runs -/

theorem execAll_cons_next_iff {i : Instr} {is : List Instr} {s t : State} :
    execAll (i :: is) s = .next t ↔ ∃ u, exec i s = .next u ∧ execAll is u = .next t := by
  rw [execAll]
  cases exec i s <;> simp

/-- The would-be `DP` of R102: where it was, plus the `>`, minus the `<`. -/
def pointerAfter (dp : Int) (is : List Instr) : Int := dp + is.count .right - is.count .left

theorem pointerAfter_nil (dp : Int) : pointerAfter dp [] = dp := by
  simp [pointerAfter]

theorem pointerAfter_left (dp : Int) (is : List Instr) :
    pointerAfter dp (.left :: is) = pointerAfter (dp - 1) is := by
  rw [pointerAfter, pointerAfter, List.count_cons_self, List.count_cons_of_ne (by decide)]
  omega

theorem pointerAfter_right (dp : Int) (is : List Instr) :
    pointerAfter dp (.right :: is) = pointerAfter (dp + 1) is := by
  rw [pointerAfter, pointerAfter, List.count_cons_self, List.count_cons_of_ne (by decide)]
  omega

/-- A run of pointer instructions that does not end in `Fatal` changes nothing but `DP` and `PC`. In
particular its status is the one it began with: no pointer instruction leaves `Fatal`. -/
theorem execAll_pointers_frame {is : List Instr} {s t : State}
    (hall : ∀ i ∈ is, i = .left ∨ i = .right) (h : execAll is s = .next t)
    (hf : t.status ≠ .fatal) : t = { s with dp := t.dp, pc := s.pc + is.length } := by
  induction is generalizing s with
  | nil => cases h; rfl
  | cons i is ih =>
    obtain ⟨u, hiu, hut⟩ := execAll_cons_next_iff.mp h
    obtain ⟨hi, hrest⟩ := List.forall_mem_cons.mp hall
    have ht : t = { u with dp := t.dp, pc := u.pc + is.length } := ih hrest hut
    have hu : u.status ≠ .fatal := by rwa [ht] at hf
    rw [List.length_cons, Nat.add_comm is.length, ← Nat.add_assoc]
    obtain ⟨-, -, rfl⟩ | ⟨-, -, rfl⟩ := exec_pointer_moves hi hiu hu <;> exact ht

/-- One pointer instruction that does not end in `Fatal` stays on the tape and takes its share of the
would-be `DP`. -/
theorem exec_pointer_dp {i : Instr} {s u : State} (hi : i = .left ∨ i = .right)
    (hd : s.dp < Config.tapeLen) (h : exec i s = .next u) (hu : u.status ≠ .fatal) :
    u.dp < Config.tapeLen ∧ ∀ is, pointerAfter s.dp (i :: is) = pointerAfter u.dp is := by
  obtain ⟨rfl, h0, rfl⟩ | ⟨rfl, hr, rfl⟩ := exec_pointer_moves hi h hu
  · have hdp : ((s.dp - 1 : Nat) : Int) = s.dp - 1 := by omega
    exact ⟨Nat.lt_of_le_of_lt (Nat.sub_le _ _) hd, fun is => by
      rw [pointerAfter_left, State.advance_dp, State.setDp_dp, hdp]⟩
  · exact ⟨hr, fun is => by
      rw [pointerAfter_right, State.advance_dp, State.setDp_dp, Int.natCast_succ]⟩

/-- R102(c): a run of pointer instructions that does not end in `Fatal` keeps the would-be `DP` on the tape
at every point, and ends at it. -/
theorem execAll_pointers_dp {is : List Instr} {s t : State}
    (hall : ∀ i ∈ is, i = .left ∨ i = .right) (hd : s.dp < Config.tapeLen)
    (h : execAll is s = .next t) (hf : t.status ≠ .fatal) :
    (t.dp : Int) = pointerAfter s.dp is ∧
    ∀ k, 0 ≤ pointerAfter s.dp (is.take k) ∧ pointerAfter s.dp (is.take k) < Config.tapeLen := by
  induction is generalizing s with
  | nil =>
    cases h
    refine ⟨(pointerAfter_nil _).symm, fun k => ?_⟩
    rw [List.take_nil, pointerAfter_nil]
    omega
  | cons i is ih =>
    obtain ⟨u, hiu, hut⟩ := execAll_cons_next_iff.mp h
    obtain ⟨hi, hrest⟩ := List.forall_mem_cons.mp hall
    have hu : u.status ≠ .fatal := by rwa [execAll_pointers_frame hrest hut hf] at hf
    obtain ⟨hdu, hshift⟩ := exec_pointer_dp hi hd hiu hu
    obtain ⟨hend, hpath⟩ := ih hrest hdu hut
    refine ⟨hend.trans (hshift is).symm, fun k => ?_⟩
    cases k with
    | zero =>
      rw [List.take_zero, pointerAfter_nil]
      omega
    | succ k =>
      rw [List.take_succ_cons, hshift]
      exact hpath k

/-- Settles O44: `pointerAfter` is the sum it speaks of, and taking the length of a list takes the whole list. -/
theorem pointerMovesAddUp : Obligations.PointerMovesAddUp := by
  intro is s t hall hd _ h hf
  obtain ⟨hend, hpath⟩ := execAll_pointers_dp hall hd h hf
  refine ⟨execAll_pointers_frame hall h hf, fun k _ => ?_⟩
  obtain ⟨hlow, hhigh⟩ := hpath k
  refine ⟨hlow, hhigh, ?_⟩
  rintro rfl
  rw [List.take_length]
  exact hend

end Sys2Proof.Machine
end

