-- ==== Sys2Proof/Proofs/CellArith.lean ====
section
/-! The cell arithmetic instructions (42_cell_arith.md). `+` and `-` both add a constant to the current cell,
modulo 256; what holds of them is proved once for that addition. -/

namespace Sys2Proof.Machine

/-! ### Addition to a cell -/

/-- Cell plus `k`, modulo 256: `+` is its case 1 and `-` its case 255. -/
def cellPlus (k : Nat) (v : Byte) : Byte := BitVec.ofNat 8 ((uval v + k) % 256)

theorem cellPlusOne_eq : cellPlusOne = cellPlus 1 := rfl

theorem cellMinusOne_eq : cellMinusOne = cellPlus 255 := rfl

theorem toNat_cellPlus (k : Nat) (v : Byte) : (cellPlus k v).toNat = (v.toNat + k) % 256 := by
  rw [cellPlus, BitVec.toNat_ofNat]
  exact Nat.mod_mod _ 256

theorem toInt_cellPlus (k : Nat) (v : Byte) : (cellPlus k v).toInt = (v.toInt + k).bmod 256 := by
  rw [BitVec.toInt_eq_toNat_bmod, toNat_cellPlus, BitVec.toInt_eq_toNat_bmod, Int.natCast_mod,
    Int.natCast_add]
  exact (Int.emod_bmod _ 256).trans Int.bmod_add_bmod.symm

theorem cellPlus_cellPlus (j k : Nat) (v : Byte) : cellPlus k (cellPlus j v) = cellPlus (j + k) v := by
  apply BitVec.eq_of_toNat_eq
  rw [toNat_cellPlus, toNat_cellPlus, toNat_cellPlus]
  omega

theorem cellPlus_of_dvd {k : Nat} (h : 256 ∣ k) (v : Byte) : cellPlus k v = v := by
  apply BitVec.eq_of_toNat_eq
  rw [toNat_cellPlus]
  have := v.isLt
  omega

/-- Settles O42: the readings by `toNat_cellPlus` and `toInt_cellPlus`, the inverses because 1 + 255 is 256. -/
theorem arithmeticIgnoresSignedness : Obligations.ArithmeticIgnoresSignedness := by
  intro v
  rw [cellPlusOne_eq, cellMinusOne_eq]
  have hminus : (sval v + (255 : Nat)).bmod 256 = (sval v - 1).bmod 256 := by
    rw [← Int.add_bmod_right (sval v - 1)]
    congr 1
    omega
  exact ⟨toNat_cellPlus 1 v, toInt_cellPlus 1 v, toNat_cellPlus 255 v, (toInt_cellPlus 255 v).trans hminus,
    (cellIsZero_iff v).trans BitVec.toNat_eq, (cellIsZero_iff v).trans BitVec.toInt_inj.symm,
    (cellPlus_cellPlus 1 255 v).trans (cellPlus_of_dvd (Nat.dvd_refl 256) v),
    (cellPlus_cellPlus 255 1 v).trans (cellPlus_of_dvd (Nat.dvd_refl 256) v)⟩

/-! ### Writing one cell again -/

section
variable {m : Memory} {a : Nat} (hm : Memory.wf m = true) (ha : a < Config.tapeLen)
include hm ha

/-- Of two writes to one cell the second stands. -/
theorem Memory.write_write (v w : Byte) :
    Memory.write (Memory.write m a v) a w = Memory.write m a w := by
  have hv := Memory.wf_write hm v ha
  refine Memory.eq_of_read_eq (Memory.wf_write hv w ha) (Memory.wf_write hm w ha) fun b => ?_
  rw [Memory.read_write hv, Memory.read_write hm, Memory.read_write hm]
  split <;> rfl

/-- Writing what a cell holds changes nothing, in the canonical form not even the data. -/
theorem Memory.write_read_self : Memory.write m a (Memory.read m a) = m := by
  refine Memory.eq_of_read_eq (Memory.wf_write hm _ ha) hm fun b => ?_
  rw [Memory.read_write hm]
  split
  case isTrue hb => rw [hb]
  case isFalse => rfl

end

/-! ### The instructions and their runs -/

/-- `s` with `k` added to its current cell and `PC` moved on by `n`. -/
def State.addToCell (s : State) (k n : Nat) : State :=
  { s with tape := Memory.write s.tape s.dp (cellPlus k (Memory.read s.tape s.dp)), pc := s.pc + n }

@[simp] theorem State.addToCell_dp (s : State) (k n : Nat) : (s.addToCell k n).dp = s.dp := rfl

@[simp] theorem State.addToCell_tape (s : State) (k n : Nat) :
    (s.addToCell k n).tape = Memory.write s.tape s.dp (cellPlus k (Memory.read s.tape s.dp)) := rfl

/-- The instruction adds `k` to the current cell and advances, wherever `DP` is on the tape. -/
def AddsToCell (i : Instr) (k : Nat) : Prop :=
  ∀ s : State, s.dp < Config.tapeLen → exec i s = .next (s.addToCell k 1)

theorem addsToCell_inc : AddsToCell .inc 1 := fun s hd => (execInc_eq s).trans (if_pos hd)

theorem addsToCell_dec : AddsToCell .dec 255 := fun s hd => (execDec_eq s).trans (if_pos hd)

section
variable {s : State} (hm : Memory.wf s.tape = true)
include hm

theorem toNat_read_addToCell_dp (k n : Nat) :
    (Memory.read (s.addToCell k n).tape s.dp).toNat = ((Memory.read s.tape s.dp).toNat + k) % 256 := by
  rw [State.addToCell_tape, Memory.read_write hm, if_pos rfl, toNat_cellPlus]

theorem read_addToCell_of_ne (k n : Nat) {a : Nat} (ha : a ≠ s.dp) :
    Memory.read (s.addToCell k n).tape a = Memory.read s.tape a := by
  rw [State.addToCell_tape, Memory.read_write hm, if_neg ha]

variable (hd : s.dp < Config.tapeLen)
include hd

/-- Adding a multiple of 256 restores the whole tape. -/
theorem addToCell_tape_of_dvd {k : Nat} (h : 256 ∣ k) (n : Nat) : (s.addToCell k n).tape = s.tape := by
  rw [State.addToCell_tape, cellPlus_of_dvd h, Memory.write_read_self hm hd]

theorem addToCell_zero : s.addToCell 0 0 = s := by
  have ht := addToCell_tape_of_dvd hm hd (Nat.dvd_zero 256) 0
  exact congrArg (fun m => { s with tape := m }) ht

theorem addToCell_addToCell (j k m n : Nat) :
    (s.addToCell j m).addToCell k n = s.addToCell (j + k) (m + n) := by
  rw [State.addToCell, State.addToCell_tape, State.addToCell_dp, Memory.read_write hm, if_pos rfl,
    cellPlus_cellPlus, Memory.write_write hm hd]
  simp only [State.addToCell, Nat.add_assoc]

end

/-- `n` instructions that each add `k` add `k * n`. -/
theorem AddsToCell.execAll_replicate {i : Instr} {k : Nat} (h : AddsToCell i k) (n : Nat) {s : State}
    (hm : Memory.wf s.tape = true) (hd : s.dp < Config.tapeLen) :
    execAll (List.replicate n i) s = .next (s.addToCell (k * n) n) := by
  induction n generalizing s with
  | zero => exact congrArg _ (addToCell_zero hm hd).symm
  | succ n ih =>
    refine execAll_cons_next_iff.mpr ⟨s.addToCell k 1, h s hd, ?_⟩
    rw [ih (s := s.addToCell k 1) (Memory.wf_write hm _ hd) hd, addToCell_addToCell hm hd,
      Nat.mul_succ, Nat.add_comm k, Nat.add_comm 1]

/-- Settles O8 by `addsToCell_inc`. -/
theorem incAddsOneModulo256 : Obligations.IncAddsOneModulo256 :=
  ⟨rfl, fun s hd hm => ⟨s.addToCell 1 1, addsToCell_inc s hd, toNat_read_addToCell_dp hm 1 1,
    fun _ => read_addToCell_of_ne hm 1 1, rfl⟩⟩

/-- Settles O9 by `addsToCell_dec`. -/
theorem decSubtractsOneModulo256 : Obligations.DecSubtractsOneModulo256 :=
  ⟨rfl, fun s hd hm => ⟨s.addToCell 255 1, addsToCell_dec s hd, toNat_read_addToCell_dp hm 255 1,
    fun _ => read_addToCell_of_ne hm 255 1, rfl⟩⟩

/-- R112(e) for `+` and `-` alike: what `n` of them do, and that 256 of them restore the tape. -/
theorem AddsToCell.repeated {i : Instr} {k : Nat} (h : AddsToCell i k) (n : Nat) {s : State}
    (hd : s.dp < Config.tapeLen) (hm : Memory.wf s.tape = true) :
    ∃ t, execAll (List.replicate n i) s = .next t ∧
      uval (Memory.read t.tape s.dp) = (uval (Memory.read s.tape s.dp) + k * n) % 256 ∧
      t = { s with tape := t.tape, pc := s.pc + n } ∧ (n = 256 → t.tape = s.tape) :=
  ⟨s.addToCell (k * n) n, h.execAll_replicate n hm hd, toNat_read_addToCell_dp hm _ n, rfl,
    fun hn => addToCell_tape_of_dvd hm hd (hn ▸ Nat.dvd_mul_left n k) n⟩

/-- Settles O43: `+` adds 1 and `-` adds 255, `n` times each. -/
theorem repeatedArithmeticIsModular : Obligations.RepeatedArithmeticIsModular := by
  intro n s hd hm
  have hinc := addsToCell_inc.repeated n hd hm
  rw [Nat.one_mul] at hinc
  exact ⟨hinc, addsToCell_dec.repeated n hd hm⟩

end Sys2Proof.Machine
end

