-- ==== Sys2Proof/Proofs/Io.lean ====
section
/-! Output, input and the rejected commands (43_io.md). -/

namespace Sys2Proof.Machine

/-- Settles O10 by `execOut_eq`. -/
theorem outEmitsCurrentCell : Obligations.OutEmitsCurrentCell :=
  ⟨rfl, fun s hd => (execOut_eq s).trans (if_pos hd)⟩

/-- R121: the request half of `,` has one outcome, whatever the state. -/
theorem execInp_eq (s : State) :
    execInp s = .next ((s.emit .awaitBegin).setStatus .awaitingInput) := rfl

/-- Settles O11 by `execInp_eq`. -/
theorem inSuspendsWithoutAdvancing : Obligations.InSuspendsWithoutAdvancing :=
  ⟨rfl, execInp_eq⟩

/-- Settles O20: the state is the one of `issue_deliver_accepted`, and its cells are those after one write. -/
theorem deliverCompletesInput : Obligations.DeliverCompletesInput := by
  intro s b hs hd hm
  have hread := Memory.read_write hm s.dp b
  exact ⟨_, issue_deliver_accepted b hs hd, (hread s.dp).trans (if_pos rfl),
    fun a ha => (hread a).trans (if_neg ha), rfl⟩

/-- R123, R174: recording the command does not change the status that the `Deliver` is judged by. -/
theorem issue_deliver_rejected {s : State} (b : Byte) (hs : s.status ≠ .awaitingInput) :
    issue (.deliver b) s =
      .next { s with trace := s.trace ++ [.command (.deliver b), .event .misuse] } := by
  have hstatus : (s.note (.command (.deliver b))).status ≠ .awaitingInput := hs
  rw [issue, deliverCommand, if_neg hstatus, outcome_ok]
  simp [State.reject, State.emit, State.note]

/-- R200, R203: a `Reset` emits nothing on a well-formed text and the structural error on another. -/
theorem newEvents_of_reset {s t : State} {text : Text} (h : issue (.reset text) s = .next t) :
    newEvents s t = if wellFormed text then [] else [.fatal .structuralError] := by
  rw [(resetSetsEveryItem s text).1] at h
  cases h
  rw [newEvents_of_append rfl, eventsOf_command]
  split <;> rfl

/-- Settles O21: `Start` by `startRunsReadyEngine`, `Deliver` by `issue_deliver_rejected`, `Reset` by its
two lists of events. -/
theorem misplacedCommandIsRejected : Obligations.MisplacedCommandIsRejected := by
  refine ⟨fun s => (startRunsReadyEngine s).2, fun s b => issue_deliver_rejected b, fun s text => ?_⟩
  refine ⟨_, rfl, ?_⟩
  rw [newEvents_of_reset rfl]
  split <;> simp

end Sys2Proof.Machine
end

