-- ==== Sys2Proof/Proofs/BracketPairs.lean ====
section
/-! The jump resolver and the jump table (44_loop.md R142 to R145): both scans and the table find the same
pairs, those of `Paired`, in any text. Validation only adds that every bracket stands in a pair. -/

namespace Sys2Proof.Machine

/-! ### Paired brackets -/

/-- `d(k)` of 70_reset_and_hazards.md R202: the depth before address `k`. -/
def depthBefore (text : Text) (k : Nat) : Int := bracketDepth (text.take k)

/-- The bracket at `i` is still open before address `k`: the depth has stayed above its own since. -/
def OpenAt (text : Text) (i k : Nat) : Prop :=
  i < k ∧ ∀ m, i < m → m ≤ k → depthBefore text i < depthBefore text m

/-- The brackets at `i` and `j` match: the one at `i` is open up to `j`, and `j` brings the depth back. -/
def Paired (text : Text) (i j : Nat) : Prop :=
  OpenAt text i j ∧ j < text.length ∧ depthBefore text (j + 1) = depthBefore text i

theorem depthBefore_succ {text : Text} {k : Nat} {c : Byte} (hc : text[k]? = some c) :
    depthBefore text (k + 1) = depthBefore text k + bracketStep c :=
  bracketDepth_take_succ hc

theorem bracketDepth_stretch {text : Text} {lo hi : Nat} (h : lo ≤ hi + 1) :
    bracketDepth (stretch text lo hi) = depthBefore text (hi + 1) - depthBefore text lo := by
  have hsplit : bracketDepth (text.take lo) + bracketDepth (stretch text lo hi) =
      bracketDepth (text.take (hi + 1)) := by
    have htake : text.take lo = (text.take (hi + 1)).take lo := by
      rw [List.take_take, Nat.min_eq_left h]
    rw [htake, ← bracketDepth_append, stretch, List.take_append_drop]
  rw [depthBefore, depthBefore]
  omega

theorem openAt_succ_iff {text : Text} {i k : Nat} (hik : i < k) :
    OpenAt text i (k + 1) ↔ OpenAt text i k ∧ depthBefore text i < depthBefore text (k + 1) := by
  constructor
  · rintro ⟨-, hopen⟩
    exact ⟨⟨hik, fun m him hmk => hopen m him (Nat.le_succ_of_le hmk)⟩,
      hopen (k + 1) (Nat.lt_succ_of_lt hik) le_rfl⟩
  · rintro ⟨⟨-, hopen⟩, hlast⟩
    refine ⟨Nat.lt_succ_of_lt hik, fun m him hmk => ?_⟩
    obtain hm | rfl := Nat.le_succ_iff.mp hmk
    · exact hopen m him hm
    · exact hlast

theorem openAt_self_succ_iff {text : Text} {k : Nat} :
    OpenAt text k (k + 1) ↔ depthBefore text k < depthBefore text (k + 1) := by
  constructor
  · rintro ⟨-, hopen⟩
    exact hopen (k + 1) (Nat.lt_succ_self k) le_rfl
  · intro h
    refine ⟨Nat.lt_succ_self k, fun m hkm hmk => ?_⟩
    obtain rfl : m = k + 1 := by omega
    exact h

theorem OpenAt.depth_lt {text : Text} {i k : Nat} (h : OpenAt text i k) :
    depthBefore text i < depthBefore text k := h.2 k h.1 le_rfl

theorem Paired.lt {text : Text} {i j : Nat} (h : Paired text i j) : i < j := h.1.1

theorem Paired.lt_length {text : Text} {i j : Nat} (h : Paired text i j) : j < text.length := h.2.1

theorem Paired.jz {text : Text} {i j : Nat} (h : Paired text i j) : text[i]? = some codeJz := by
  obtain ⟨⟨hij, hopen⟩, hj, -⟩ := h
  have hc : text[i]? = some text[i] := List.getElem?_eq_getElem (hij.trans hj)
  have hup := hopen (i + 1) (Nat.lt_succ_self i) hij
  rw [depthBefore_succ hc] at hup
  rw [hc, (bracketStep_pos_iff text[i]).mp (by omega)]

theorem Paired.jnz {text : Text} {i j : Nat} (h : Paired text i j) : text[j]? = some codeJnz := by
  obtain ⟨hopen, hj, hback⟩ := h
  have hc : text[j]? = some text[j] := List.getElem?_eq_getElem hj
  have hdown := hopen.depth_lt
  rw [← hback, depthBefore_succ hc] at hdown
  rw [hc, (bracketStep_neg_iff text[j]).mp (by omega)]

/-! ### The scans find the paired bracket -/

/-- The pairs from address `k` on are the pair of `k`, if it has one, and those after it. -/
theorem le_and_paired_iff {text : Text} {i j k : Nat} :
    k ≤ j ∧ Paired text i j ↔ (Paired text i k ∧ j = k) ∨ (k + 1 ≤ j ∧ Paired text i j) := by
  rw [le_iff_eq_or_lt, or_and_right]
  refine or_congr_left ?_
  constructor
  · rintro ⟨rfl, h⟩
    exact ⟨h, rfl⟩
  · rintro ⟨h, rfl⟩
    exact ⟨rfl, h⟩

/-- Where no pair of `i` ends the search goes on. -/
theorem le_and_paired_iff_of_not_paired {text : Text} {i j k : Nat} (hk : ¬ Paired text i k) :
    k ≤ j ∧ Paired text i j ↔ k + 1 ≤ j ∧ Paired text i j := by
  rw [le_and_paired_iff]
  exact or_iff_right fun ⟨h, _⟩ => hk h

/-- The first character of the rest of a text, and the rest after it. -/
theorem getElem?_and_drop_succ_of_drop {text cs : Text} {c : Byte} {k : Nat}
    (h : text.drop k = c :: cs) : text[k]? = some c ∧ text.drop (k + 1) = cs := by
  rw [← List.head?_drop, ← List.tail_drop, h]
  exact ⟨rfl, rfl⟩

/-- The forward scan from a `[` that is still open, its counter the depth above that `[`. -/
theorem scanFwd_eq_some_iff {text cs : Text} {i j k d : Nat} (hcs : text.drop k = cs)
    (hopen : OpenAt text i k) (hd : (d : Int) = depthBefore text k - depthBefore text i) :
    scanFwd cs d k = some j ↔ k ≤ j ∧ Paired text i j := by
  have hpos : 0 < d := by
    have := hopen.depth_lt
    omega
  induction cs generalizing k d with
  | nil =>
    have hend : text.length ≤ k := List.drop_eq_nil_iff.mp hcs
    refine iff_of_false nofun ?_
    rintro ⟨hkj, -, hj, -⟩
    omega
  | cons c cs ih =>
    obtain ⟨hc, hrest⟩ := getElem?_and_drop_succ_of_drop hcs
    have hcount : (depthFwd c d : Int) = depthBefore text (k + 1) - depthBefore text i := by
      rw [depthFwd_cast c hpos, depthBefore_succ hc]
      omega
    rw [scanFwd]
    split
    next hzero =>
      have hback : depthBefore text (k + 1) = depthBefore text i := by omega
      have hk : Paired text i k := ⟨hopen, (List.getElem?_eq_some_iff.mp hc).1, hback⟩
      constructor
      · rintro ⟨⟩
        exact ⟨le_rfl, hk⟩
      · rintro ⟨hkj, ⟨-, hstay⟩, -, -⟩
        obtain rfl | hlt := hkj.eq_or_lt
        · rfl
        · have := hstay (k + 1) (Nat.lt_succ_of_lt hopen.1) hlt
          omega
    next hne =>
      have hopen' : OpenAt text i (k + 1) := (openAt_succ_iff hopen.1).mpr ⟨hopen, by omega⟩
      have hk : ¬ Paired text i k := fun ⟨_, _, hback⟩ => by omega
      rw [le_and_paired_iff_of_not_paired hk]
      exact ih hrest hopen' hcount (Nat.pos_of_ne_zero hne)

/-- The backward scan below an address from which the depth has stayed above the one after the `]`, its
counter how far above. -/
theorem scanBwd_eq_some_iff {text : Text} {i j k d : Nat} (hkj : k ≤ j) (hj : j < text.length)
    (habove : ∀ m, k ≤ m → m ≤ j → depthBefore text (j + 1) < depthBefore text m)
    (hd : (d : Int) = depthBefore text k - depthBefore text (j + 1)) :
    scanBwd (text.take k).reverse d = some i ↔ i < k ∧ Paired text i j := by
  have hpos : 0 < d := by
    have := habove k le_rfl hkj
    omega
  induction k generalizing d with
  | zero => exact iff_of_false nofun fun ⟨hi, _⟩ => Nat.not_lt_zero i hi
  | succ k ih =>
    have hk : k < text.length := by omega
    have hc : text[k]? = some text[k] := List.getElem?_eq_getElem hk
    have hcount : (depthBwd text[k] d : Int) = depthBefore text k - depthBefore text (j + 1) := by
      rw [depthBwd_cast _ hpos, hd, depthBefore_succ hc]
      omega
    rw [List.take_succ_eq_append_getElem hk, List.reverse_append, List.reverse_singleton,
      List.singleton_append, scanBwd, List.length_reverse, List.length_take_of_le hk.le]
    split
    next hzero =>
      have hback : depthBefore text (j + 1) = depthBefore text k := by omega
      have hkp : Paired text k j :=
        ⟨⟨hkj, fun m hkm hmj => hback ▸ habove m hkm hmj⟩, hj, hback⟩
      constructor
      · rintro ⟨⟩
        exact ⟨Nat.lt_succ_self _, hkp⟩
      · rintro ⟨hik, ⟨-, hstay⟩, -, hbacki⟩
        obtain rfl | hlt := (Nat.le_of_lt_succ hik).eq_or_lt
        · rfl
        · have := hstay k hlt (Nat.le_of_succ_le hkj)
          omega
    next hne =>
      have habove' : ∀ m, k ≤ m → m ≤ j → depthBefore text (j + 1) < depthBefore text m := by
        intro m hkm hmj
        obtain rfl | hlt := hkm.eq_or_lt
        · omega
        · exact habove m hlt hmj
      refine (ih (Nat.le_of_succ_le hkj) habove' hcount (Nat.pos_of_ne_zero hne)).trans <|
        and_congr_left fun ⟨_, _, hback⟩ => ⟨Nat.lt_succ_of_lt, fun hik => ?_⟩
      obtain rfl | hlt := (Nat.le_of_lt_succ hik).eq_or_lt
      · omega
      · exact hlt

/-- R142: `MatchFwd` of a `[` is the address it is paired with. -/
theorem matchFwd_eq_some_iff {text : Text} {i j : Nat} (hi : text[i]? = some codeJz) :
    matchFwd text i = some j ↔ Paired text i j := by
  have hup : depthBefore text (i + 1) = depthBefore text i + 1 := depthBefore_succ hi
  rw [matchFwd, scanFwd_eq_some_iff rfl (openAt_self_succ_iff.mpr (by omega)) (by omega)]
  exact and_iff_right_of_imp Paired.lt

/-- R143: `MatchBwd` of a `]` is the address it is paired with. -/
theorem matchBwd_eq_some_iff {text : Text} {i j : Nat} (hj : text[j]? = some codeJnz) :
    matchBwd text j = some i ↔ Paired text i j := by
  have hdown : depthBefore text (j + 1) = depthBefore text j - 1 := depthBefore_succ hj
  have habove : ∀ m, j ≤ m → m ≤ j → depthBefore text (j + 1) < depthBefore text m := by
    intro m hjm hmj
    obtain rfl : m = j := Nat.le_antisymm hmj hjm
    omega
  rw [matchBwd, scanBwd_eq_some_iff le_rfl (List.getElem?_eq_some_iff.mp hj).1 habove (by omega)]
  exact and_iff_right_of_imp Paired.lt

/-- Settles O46: the depth of a stretch from `i` is the depth after it less the depth before `i`. -/
theorem matchFwdIsFirstReturnToZero : Obligations.MatchFwdIsFirstReturnToZero := by
  intro text i j hi
  rw [matchFwd_eq_some_iff hi]
  constructor
  · rintro ⟨⟨hij, hopen⟩, hj, hback⟩
    refine ⟨hij, hj, ?_, fun k hik hkj => ?_⟩
    · rw [bracketDepth_stretch (by omega)]
      omega
    · have := hopen (k + 1) (by omega) hkj
      rw [bracketDepth_stretch (by omega)]
      omega
  · rintro ⟨hij, hj, hzero, hpos⟩
    rw [bracketDepth_stretch (by omega)] at hzero
    refine ⟨⟨hij, fun m him hmj => ?_⟩, hj, by omega⟩
    obtain ⟨k, rfl⟩ : ∃ k, m = k + 1 := ⟨m - 1, by omega⟩
    have := hpos k (by omega) hmj
    rw [bracketDepth_stretch (by omega)] at this
    omega

/-- Settles O47: the depth of a stretch up to `j` is the depth after `j` less the depth before it. -/
theorem matchBwdIsFirstReturnToZero : Obligations.MatchBwdIsFirstReturnToZero := by
  intro text i j hj
  rw [matchBwd_eq_some_iff hj]
  constructor
  · rintro ⟨⟨hij, hopen⟩, -, hback⟩
    refine ⟨hij, ?_, fun k hik hkj => ?_⟩
    · rw [bracketDepth_stretch (by omega)]
      omega
    · have := hopen k hik hkj
      rw [bracketDepth_stretch (by omega)]
      omega
  · rintro ⟨hij, hzero, hneg⟩
    rw [bracketDepth_stretch (by omega)] at hzero
    refine ⟨⟨hij, fun m him hmj => ?_⟩, (List.getElem?_eq_some_iff.mp hj).1, by omega⟩
    have := hneg m him hmj
    rw [bracketDepth_stretch (by omega)] at this
    omega

/-! ### Pairs in a validated text, and how they nest -/

/-- R145(a): in a validated text every `[` is paired. -/
theorem exists_paired_of_jz {text : Text} {i : Nat} (hw : wellFormed text = true)
    (hi : text[i]? = some codeJz) : ∃ j, Paired text i j := by
  obtain ⟨j, hj⟩ := Option.ne_none_iff_exists'.mp (matchFwd_ne_none hw hi)
  exact ⟨j, (matchFwd_eq_some_iff hi).mp hj⟩

/-- R145(c): in a validated text every `]` is paired. -/
theorem exists_paired_of_jnz {text : Text} {j : Nat} (hw : wellFormed text = true)
    (hj : text[j]? = some codeJnz) : ∃ i, Paired text i j := by
  obtain ⟨i, hi⟩ := Option.ne_none_iff_exists'.mp (matchBwd_ne_none hw hj)
  exact ⟨i, (matchBwd_eq_some_iff hj).mp hi⟩

theorem Paired.matchFwd {text : Text} {i j : Nat} (h : Paired text i j) :
    matchFwd text i = some j := (matchFwd_eq_some_iff h.jz).mpr h

theorem Paired.matchBwd {text : Text} {i j : Nat} (h : Paired text i j) :
    matchBwd text j = some i := (matchBwd_eq_some_iff h.jnz).mpr h

/-- Settles O48: each bracket is paired, and both scans find the pair. -/
theorem resolverPairsBrackets : Obligations.ResolverPairsBrackets := by
  refine fun text hw => ⟨fun i hi => ?_, fun j hj => ?_⟩
  · obtain ⟨j, h⟩ := exists_paired_of_jz hw hi
    exact ⟨j, h.matchFwd, h.lt, h.lt_length, h.jnz, h.matchBwd⟩
  · obtain ⟨i, h⟩ := exists_paired_of_jnz hw hj
    exact ⟨i, h.matchBwd, h.lt, h.jz, h.matchFwd⟩

/-- R145(f): a pair that begins inside another ends inside it. The inner bracket lies deeper, so where the
outer pair closes the inner one is no longer open. -/
theorem Paired.disjoint_or_nested {text : Text} {i i' j j' : Nat} (hii' : i < i')
    (h : Paired text i j) (h' : Paired text i' j') : j < i' ∨ j' < j := by
  obtain ⟨⟨-, hopen⟩, -, hback⟩ := h
  obtain ⟨⟨-, hopen'⟩, -, hback'⟩ := h'
  by_contra! hcross
  obtain ⟨hij, hjj'⟩ := hcross
  have hdeeper : depthBefore text i < depthBefore text i' := hopen i' hii' hij
  obtain rfl | hlt := hjj'.eq_or_lt
  · omega
  · have := hopen' (j + 1) (by omega) hlt
    omega

/-- Settles O49: pairs nest by `Paired.disjoint_or_nested`; the counter of the scan is positive by
`matchFwdIsFirstReturnToZero` and at most the length of the text. -/
theorem bracketPairsNest : Obligations.BracketPairsNest := by
  intro text i i' j j' hi hi' hii' hj hj'
  refine ⟨Paired.disjoint_or_nested hii' ((matchFwd_eq_some_iff hi).mp hj)
    ((matchFwd_eq_some_iff hi').mp hj'), fun k hik hkj => ?_⟩
  obtain ⟨-, -, -, hpos⟩ := (matchFwdIsFirstReturnToZero text i j hi).mp hj
  have hlen : (stretch text i k).length ≤ text.length := by
    rw [stretch, List.length_drop, List.length_take]
    omega
  have hwidth := Config.lt_two_pow_pcW_of_le hlen
  exact ⟨hpos k hik hkj, (bracketDepth_le_length _).trans_lt (by exact_mod_cast hwidth)⟩

/-! ### The jump table holds the pairs -/

/-- The stack of the table's scan before address `k`: the open brackets, one for each depth below the current
one, the deepest on top. -/
def IsOpenStack (text : Text) (k : Nat) (stack : List Nat) : Prop :=
  ∀ n i : Nat, stack[n]? = some i ↔
    OpenAt text i k ∧ depthBefore text i + n + 1 = depthBefore text k

theorem isOpenStack_nil (text : Text) : IsOpenStack text 0 [] := fun _ i =>
  iff_of_false nofun fun ⟨⟨hi, _⟩, _⟩ => Nat.not_lt_zero i hi

theorem paired_iff_head?_of_isOpenStack {text : Text} {k i : Nat} {stack : List Nat}
    (hs : IsOpenStack text k stack) (hc : text[k]? = some codeJnz) :
    Paired text i k ↔ stack.head? = some i := by
  have hdown : depthBefore text (k + 1) = depthBefore text k - 1 := depthBefore_succ hc
  have hk : k < text.length := (List.getElem?_eq_some_iff.mp hc).1
  rw [List.head?_eq_getElem?, hs 0 i, Paired]
  refine and_congr_right fun _ => ?_
  rw [and_iff_right hk]
  omega

/-- Over one character, the open bracket of a depth below both the depth before and the depth after stays the
same; `n` and `m` are its places on the stack before and after. -/
theorem openAt_depth_succ_iff {text : Text} {i k n m : Nat}
    (h : depthBefore text (k + 1) - m = depthBefore text k - n) :
    OpenAt text i k ∧ depthBefore text i + n + 1 = depthBefore text k ↔
      OpenAt text i (k + 1) ∧ depthBefore text i + m + 1 = depthBefore text (k + 1) := by
  constructor
  · rintro ⟨ho, hdepth⟩
    exact ⟨(openAt_succ_iff ho.1).mpr ⟨ho, by omega⟩, by omega⟩
  · rintro ⟨ho, hdepth⟩
    obtain rfl | hik := (Nat.le_of_lt_succ ho.1).eq_or_lt
    · omega
    · exact ⟨((openAt_succ_iff hik).mp ho).1, by omega⟩

/-- A `[` opens a bracket one deeper than the deepest. -/
theorem IsOpenStack.push {text : Text} {k : Nat} {stack : List Nat}
    (hs : IsOpenStack text k stack) (hc : text[k]? = some codeJz) :
    IsOpenStack text (k + 1) (k :: stack) := by
  have hup : depthBefore text (k + 1) = depthBefore text k + 1 := depthBefore_succ hc
  intro n i
  cases n with
  | zero =>
    rw [List.getElem?_cons_zero, Option.some_inj]
    constructor
    · rintro rfl
      exact ⟨openAt_self_succ_iff.mpr (by omega), by omega⟩
    · rintro ⟨ho, hdepth⟩
      obtain rfl | hik := (Nat.le_of_lt_succ ho.1).eq_or_lt
      · rfl
      · have := ((openAt_succ_iff hik).mp ho).1.depth_lt
        omega
  | succ n =>
    rw [List.getElem?_cons_succ, hs n i]
    exact openAt_depth_succ_iff (by omega)

/-- Where the depth falls by `e`, by 1 at a `]` and by 0 at a character that is no bracket, the `e` deepest
open brackets go. -/
theorem IsOpenStack.drop {text : Text} {k e : Nat} {stack : List Nat}
    (hs : IsOpenStack text k stack) (hdown : depthBefore text (k + 1) = depthBefore text k - e) :
    IsOpenStack text (k + 1) (stack.drop e) := by
  intro n i
  rw [List.getElem?_drop, hs (e + n) i]
  exact openAt_depth_succ_iff (by omega)

/-- A `]` records the pair of the topmost open bracket, if there is one, and drops it. -/
theorem mem_tableScan_jnz_iff {stack : List Nat} {cs : Text} {k : Nat} {p : Nat × Nat} :
    p ∈ tableScan stack (codeJnz :: cs) k ↔
      (stack.head? = some p.1 ∧ p.2 = k) ∨ p ∈ tableScan (stack.drop 1) cs (k + 1) := by
  rw [tableScan_cons, if_neg (by decide), if_pos rfl]
  cases stack with
  | nil => simp
  | cons i below => simp [Prod.ext_iff, eq_comm]

/-- The scan of the table, from any address on and with the stack that is then due, lists the pairs that end
there or later. -/
theorem mem_tableScan_iff {text cs : Text} {stack : List Nat} {i j k : Nat}
    (hcs : text.drop k = cs) (hs : IsOpenStack text k stack) :
    (i, j) ∈ tableScan stack cs k ↔ k ≤ j ∧ Paired text i j := by
  induction cs generalizing stack k with
  | nil =>
    have hend : text.length ≤ k := List.drop_eq_nil_iff.mp hcs
    refine iff_of_false nofun ?_
    rintro ⟨hkj, -, hj, -⟩
    omega
  | cons c cs ih =>
    obtain ⟨hc, hrest⟩ := getElem?_and_drop_succ_of_drop hcs
    by_cases hjnz : c = codeJnz
    · subst hjnz
      rw [mem_tableScan_jnz_iff, ← paired_iff_head?_of_isOpenStack hs hc,
        ih hrest (hs.drop (depthBefore_succ hc)), le_and_paired_iff (k := k)]
    · have hk : ¬ Paired text i k := fun h => hjnz (Option.some_inj.mp (hc.symm.trans h.jnz))
      rw [le_and_paired_iff_of_not_paired hk, tableScan_cons, if_neg hjnz]
      split
      next hjz => exact ih hrest (hs.push (hjz ▸ hc))
      next hjz =>
        have hsame : depthBefore text (k + 1) = depthBefore text k - (0 : Nat) := by
          simp [depthBefore_succ hc, bracketStep, hjz, hjnz]
        exact ih hrest (hs.drop hsame)

/-- R144: the jump table holds the paired brackets of the text. -/
theorem mem_jumpTable_iff {text : Text} {i j : Nat} : (i, j) ∈ jumpTable text ↔ Paired text i j := by
  rw [jumpTable, mem_tableScan_iff List.drop_zero (isOpenStack_nil text)]
  exact and_iff_right (Nat.zero_le j)

/-- Settles O50: the table and both scans speak of the same pairs, validated or not. -/
theorem jumpTableEqualsScans : Obligations.JumpTableEqualsScans := by
  refine fun text _ i j => ⟨?_, ?_⟩ <;> rw [mem_jumpTable_iff]
  · exact ⟨fun h => ⟨h.jz, h.matchFwd⟩, fun ⟨hi, h⟩ => (matchFwd_eq_some_iff hi).mp h⟩
  · exact ⟨fun h => ⟨h.jnz, h.matchBwd⟩, fun ⟨hj, h⟩ => (matchBwd_eq_some_iff hj).mp h⟩

end Sys2Proof.Machine
end

