-- ==== Sys2Proof/Proofs/Loop.lean ====
section
/-! The loop instructions (44_loop.md R140, R141). -/

namespace Sys2Proof.Machine

/-- Settles O14 by `execJz_eq`; the jump lands behind the bracket that the `[` is paired with. -/
theorem jzFallsThroughOrJumpsPast : Obligations.JzFallsThroughOrJumpsPast := by
  refine ⟨rfl, fun s hd hc hw => ?_⟩
  rw [exec, execJz_eq, tapeLen_eq, if_pos hd]
  refine ⟨fun hv => if_neg hv, fun hv => ?_⟩
  obtain ⟨j, h⟩ := exists_paired_of_jz hw hc
  refine ⟨j, h.matchFwd, h.jnz, h.lt, ?_⟩
  exact (if_pos hv).trans (congrArg (fun m => outcome (jumpPast s m)) h.matchFwd)

/-- Settles O15 by `execJnz_eq`; the jump lands behind the bracket that the `]` is paired with. -/
theorem jnzFallsThroughOrJumpsBack : Obligations.JnzFallsThroughOrJumpsBack := by
  refine ⟨rfl, fun s hd hc hw => ?_⟩
  rw [exec, execJnz_eq, tapeLen_eq, if_pos hd]
  refine ⟨fun hv => if_pos hv, fun hv => ?_⟩
  obtain ⟨i, h⟩ := exists_paired_of_jnz hw hc
  refine ⟨i, h.matchBwd, h.jz, h.lt, ?_⟩
  exact (if_neg hv).trans (congrArg (fun m => outcome (jumpPast s m)) h.matchBwd)

end Sys2Proof.Machine
end

