-- ==== Sys2Proof/Proofs/Nop.lean ====
section
/-! The no-op (45_nop.md R160), and the text that is left without the no-ops (R161): it validates alike, and
its brackets pair alike. -/

namespace Sys2Proof.Machine

/-! ### The characters that are erased -/

/-- Settles O16: such a character is the code of a well-formed `nop`, which the decoder reads back. -/
theorem nopOnlyAdvances : Obligations.NopOnlyAdvances := by
  intro c s hc
  have hd : decode c = .nop c :=
    decode_encode (i := .nop c) (by simpa [Instr.wellFormed, Instr.notNopCodes] using hc)
  rw [hd]
  rfl

theorem decode_of_not_instruction {c : Byte} (h : isInstructionCharacter c = false) :
    decode c = .nop c := by
  cases hd : decode c with
  | nop d =>
    obtain ⟨rfl, -⟩ := decode_nop_iff c d hd
    rfl
  | _ => simp [isInstructionCharacter, hd] at h

/-- A character that is erased is no bracket. -/
theorem not_bracket_of_not_instruction {c : Byte} (h : isInstructionCharacter c = false) :
    c ≠ codeJz ∧ c ≠ codeJnz :=
  ⟨by rintro rfl; exact absurd h (by decide), by rintro rfl; exact absurd h (by decide)⟩

theorem eraseNops_append (xs ys : Text) : eraseNops (xs ++ ys) = eraseNops xs ++ eraseNops ys :=
  List.filter_append xs ys

theorem eraseNops_cons_of_instruction {c : Byte} (h : isInstructionCharacter c = true) (cs : Text) :
    eraseNops (c :: cs) = c :: eraseNops cs := List.filter_cons_of_pos h

theorem eraseNops_cons_of_nop {c : Byte} (h : isInstructionCharacter c = false) (cs : Text) :
    eraseNops (c :: cs) = eraseNops cs := List.filter_cons_of_neg (by simp [h])

/-! ### Validation and depth do not see the no-ops -/

theorem validateScan_eraseNops (stack : List Byte) (cs : Text) :
    validateScan stack (eraseNops cs) = validateScan stack cs := by
  induction cs generalizing stack with
  | nil => rfl
  | cons c cs ih =>
    cases hi : isInstructionCharacter c with
    | true =>
      rw [eraseNops_cons_of_instruction hi, validateScan_cons, validateScan_cons]
      simp only [ih]
    | false =>
      obtain ⟨hjz, hjnz⟩ := not_bracket_of_not_instruction hi
      rw [eraseNops_cons_of_nop hi, validateScan_cons, if_neg hjz, if_neg hjnz, ih]

/-- Settles O51: the scan skips what is erased. -/
theorem erasingNopsKeepsValidation : Obligations.ErasingNopsKeepsValidation :=
  validateScan_eraseNops []

theorem bracketDepth_eraseNops (text : Text) : bracketDepth (eraseNops text) = bracketDepth text := by
  induction text with
  | nil => rfl
  | cons c cs ih =>
    cases hi : isInstructionCharacter c with
    | true => rw [eraseNops_cons_of_instruction hi, bracketDepth_cons, bracketDepth_cons, ih]
    | false =>
      obtain ⟨hjz, hjnz⟩ := not_bracket_of_not_instruction hi
      rw [eraseNops_cons_of_nop hi, ih, bracketDepth_cons, bracketStep, if_neg hjz, if_neg hjnz,
        Int.zero_add]

/-! ### Addresses of the erased text -/

/-- Where the character at address `k`, or the next instruction after it, stands in the erased text. -/
def erasedAddress (text : Text) (k : Nat) : Nat := (eraseNops (text.take k)).length

theorem erasedAddress_length (text : Text) :
    erasedAddress text text.length = (eraseNops text).length := by
  rw [erasedAddress, List.take_length]

theorem eraseNops_eq_take_append_drop (text : Text) (k : Nat) :
    eraseNops text = eraseNops (text.take k) ++ eraseNops (text.drop k) := by
  rw [← eraseNops_append, List.take_append_drop]

theorem take_erasedAddress (text : Text) (k : Nat) :
    (eraseNops text).take (erasedAddress text k) = eraseNops (text.take k) := by
  rw [eraseNops_eq_take_append_drop text k, erasedAddress, List.take_left]

section
variable {text : Text} {c : Byte} {k : Nat} (hc : text[k]? = some c)
include hc

theorem eraseNops_take_succ :
    eraseNops (text.take (k + 1)) = eraseNops (text.take k) ++ eraseNops [c] := by
  rw [List.take_add_one, hc, eraseNops_append, Option.toList_some]

theorem erasedAddress_succ_of_instruction (hi : isInstructionCharacter c = true) :
    erasedAddress text (k + 1) = erasedAddress text k + 1 := by
  rw [erasedAddress, eraseNops_take_succ hc, eraseNops_cons_of_instruction hi, List.length_append]
  rfl

theorem erasedAddress_succ_of_nop (hi : isInstructionCharacter c = false) :
    erasedAddress text (k + 1) = erasedAddress text k := by
  rw [erasedAddress, eraseNops_take_succ hc, eraseNops_cons_of_nop hi, List.length_append]
  rfl

theorem eraseNops_getElem? (hi : isInstructionCharacter c = true) :
    (eraseNops text)[erasedAddress text k]? = some c := by
  obtain ⟨hk, rfl⟩ := List.getElem?_eq_some_iff.mp hc
  rw [eraseNops_eq_take_append_drop text k, List.drop_eq_getElem_cons hk,
    eraseNops_cons_of_instruction hi, erasedAddress, List.getElem?_append_right le_rfl, Nat.sub_self,
    List.getElem?_cons_zero]

end

theorem erasedAddress_succ_le (text : Text) (k : Nat) :
    erasedAddress text (k + 1) ≤ erasedAddress text k + 1 := by
  rw [erasedAddress, List.take_add_one, eraseNops_append, List.length_append]
  have : (eraseNops text[k]?.toList).length ≤ 1 :=
    (List.length_filter_le _ _).trans (by cases text[k]? <;> simp)
  exact Nat.add_le_add_left this _

theorem erasedAddress_mono (text : Text) : Monotone (erasedAddress text) := by
  intro i j hij
  exact ((List.take_prefix_take_left hij).filter _).length_le

/-- Every address of the erased text up to the image of `j` is the image of an address up to `j`. -/
theorem exists_erasedAddress_eq {text : Text} {j m : Nat} (hm : m ≤ erasedAddress text j) :
    ∃ k ≤ j, erasedAddress text k = m := by
  induction j with
  | zero => exact ⟨0, le_rfl, (Nat.le_zero.mp hm).symm⟩
  | succ j ih =>
    obtain rfl | hlt := hm.eq_or_lt
    · exact ⟨j + 1, le_rfl, rfl⟩
    · have hstep := erasedAddress_succ_le text j
      obtain ⟨k, hkj, hk⟩ := ih (by omega)
      exact ⟨k, Nat.le_succ_of_le hkj, hk⟩

/-! ### Pairs of brackets -/

theorem depthBefore_eraseNops (text : Text) (k : Nat) :
    depthBefore (eraseNops text) (erasedAddress text k) = depthBefore text k := by
  rw [depthBefore, take_erasedAddress, bracketDepth_eraseNops, depthBefore]

/-- Erasing keeps pairs: between two images the depths are those between the two addresses. -/
theorem Paired.erased {text : Text} {i j : Nat} (h : Paired text i j) :
    Paired (eraseNops text) (erasedAddress text i) (erasedAddress text j) := by
  have hi := erasedAddress_succ_of_instruction h.jz (by decide)
  have hj := erasedAddress_succ_of_instruction h.jnz (by decide)
  have hj' := eraseNops_getElem? h.jnz (by decide)
  have hmono := erasedAddress_mono text
  obtain ⟨⟨hij, hopen⟩, -, hback⟩ := h
  have hlen : erasedAddress text j < (eraseNops text).length := (List.getElem?_eq_some_iff.mp hj').1
  refine ⟨⟨hi.symm.trans_le (hmono hij), fun m him hmj => ?_⟩, hlen, ?_⟩
  · obtain ⟨k, hkj, rfl⟩ := exists_erasedAddress_eq hmj
    rw [depthBefore_eraseNops, depthBefore_eraseNops]
    exact hopen k (hmono.reflect_lt him) hkj
  · rw [← hj, depthBefore_eraseNops, depthBefore_eraseNops, hback]

end Sys2Proof.Machine
end

