-- ==== Sys2Proof/Proofs/ErasedRuns.lean ====
section
/-! A text and what is left of it without its no-ops behave alike (45_nop.md R161). A state over the text is
sent to one over the erased text (`State.erased`); a turn of the host at a no-op leaves that image where it
is, and every other turn commutes with it. -/

namespace Sys2Proof.Machine

/-! ### A state over the erased text -/

/-- An entry of the trace of the erased text: its `Reset` names the erased text. -/
def TraceItem.erased : TraceItem → TraceItem
  | .command (.reset text) => .command (.reset (eraseNops text))
  | .command .start => .command .start
  | .command (.deliver b) => .command (.deliver b)
  | .event e => .event e

/-- The state of the erased text that a state of the text corresponds to. -/
def State.erased (s : State) : State :=
  { s with
    prog := eraseNops s.prog
    pc := erasedAddress s.prog s.pc
    trace := s.trace.map TraceItem.erased }

theorem eventsOf_map_erased (xs : List TraceItem) :
    eventsOf (xs.map TraceItem.erased) = eventsOf xs := by
  induction xs with
  | nil => rfl
  | cons x xs ih =>
    rcases x with ⟨_ | _ | _⟩ | e
    · exact ih
    · exact ih
    · exact ih
    · exact congrArg (e :: ·) ih

theorem freshRun_erased (text : Text) : freshRun (eraseNops text) = (freshRun text).erased := by
  rw [freshRun, freshRun, resetCommand, resetCommand, erasingNopsKeepsValidation text]
  cases wellFormed text <;> rfl

/-! ### The instructions commute with erasing -/

theorem State.erased_emit (s : State) (e : Event) : (s.emit e).erased = s.erased.emit e := by
  simp [State.erased, State.emit, State.note, TraceItem.erased]

theorem State.erased_setStatus (s : State) (v : Status) :
    (s.setStatus v).erased = s.erased.setStatus v := rfl

theorem State.erased_raiseFatal (s : State) (k : FatalKind) :
    (s.raiseFatal k).erased = s.erased.raiseFatal k :=
  State.erased_emit ((s.setStatus .fatal).setErr (some k)) (.fatal k)

section
variable {s t : State} {c : Byte} {k : Nat}

/-- To go on after the instruction at `k` is to go on after its image. -/
theorem State.erased_setPc_succ (hc : s.prog[k]? = some c) (hi : isInstructionCharacter c = true) :
    (s.setPc (k + 1)).erased = s.erased.setPc (erasedAddress s.prog k + 1) := by
  rw [← erasedAddress_succ_of_instruction hc hi]
  rfl

theorem State.erased_advance (hc : s.prog[s.pc]? = some c) (hi : isInstructionCharacter c = true) :
    s.advance.erased = s.erased.advance := State.erased_setPc_succ hc hi

theorem State.erased_setTape_advance (hc : s.prog[s.pc]? = some c)
    (hi : isInstructionCharacter c = true) (m : Memory) :
    (s.setTape m).advance.erased = (s.erased.setTape m).advance :=
  State.erased_advance (s := s.setTape m) hc hi

theorem State.erased_setDp_advance (hc : s.prog[s.pc]? = some c)
    (hi : isInstructionCharacter c = true) (n : Nat) :
    (s.setDp n).advance.erased = (s.erased.setDp n).advance :=
  State.erased_advance (s := s.setDp n) hc hi

theorem State.erased_emit_advance (hc : s.prog[s.pc]? = some c)
    (hi : isInstructionCharacter c = true) (e : Event) :
    (s.emit e).advance.erased = (s.erased.emit e).advance :=
  (State.erased_advance (s := s.emit e) hc hi).trans (congrArg State.advance (s.erased_emit e))

theorem State.erased_advance_of_nop (hc : s.prog[s.pc]? = some c)
    (hi : isInstructionCharacter c = false) : s.advance.erased = s.erased := by
  rw [State.erased, State.advance_prog, State.advance_pc, erasedAddress_succ_of_nop hc hi]
  rfl

/-- An instruction character does over the erased text what it does over the text. -/
theorem exec_erased (hc : s.prog[s.pc]? = some c) (hi : isInstructionCharacter c = true)
    (h : exec (decode c) s = .next t) : exec (decode c) s.erased = .next t.erased := by
  obtain ⟨-, -, -, -, -, -, hjz, hjnz⟩ := decode_eq_iff c
  rcases exec_cases h with ⟨hd, hdp, rfl⟩ | ⟨hd, hdp, rfl⟩ | ⟨hd, hdp, rfl⟩ | ⟨hd, rfl⟩ |
    ⟨hd, hdp, rfl⟩ | ⟨hd, hdp, rfl⟩ | ⟨hd, hdp, rfl⟩ | ⟨hd, hdp, rfl⟩ | ⟨hd, hdp, hz, rfl⟩ |
    ⟨hd, hdp, hz, j, hj, rfl⟩ | ⟨hd, hdp, hz, rfl⟩ | ⟨hd, hdp, hz, j, hj, rfl⟩ | ⟨⟨d, hd⟩, -⟩
  · rw [hd, State.erased_setTape_advance hc hi]
    exact (execInc_eq s.erased).trans (if_pos hdp)
  · rw [hd, State.erased_setTape_advance hc hi]
    exact (execDec_eq s.erased).trans (if_pos hdp)
  · rw [hd, State.erased_emit_advance hc hi]
    exact (execOut_eq s.erased).trans (if_pos hdp)
  · rw [hd, State.erased_setStatus, State.erased_emit]
    exact execInp_eq s.erased
  · rw [hd, State.erased_raiseFatal]
    exact (execLeft_eq s.erased).trans (if_pos hdp)
  · rw [hd, State.erased_setDp_advance hc hi]
    exact (execLeft_eq s.erased).trans (if_neg hdp)
  · rw [hd, State.erased_setDp_advance hc hi]
    exact (execRight_eq s.erased).trans (if_pos hdp)
  · rw [hd, State.erased_raiseFatal]
    exact (execRight_eq s.erased).trans (if_neg hdp)
  · rw [hd, State.erased_advance hc hi]
    exact (execJz_eq s.erased).trans ((if_pos hdp).trans (if_neg hz))
  · have hpair : Paired s.prog s.pc j := (matchFwd_eq_some_iff (hjz.mp hd ▸ hc)).mp hj
    rw [hd, State.erased_setPc_succ hpair.jnz (by decide)]
    refine (execJz_eq s.erased).trans ((if_pos hdp).trans ((if_pos hz).trans ?_))
    exact congrArg (fun m => outcome (jumpPast s.erased m)) hpair.erased.matchFwd
  · rw [hd, State.erased_advance hc hi]
    exact (execJnz_eq s.erased).trans ((if_pos hdp).trans (if_pos hz))
  · have hpair : Paired s.prog j s.pc := (matchBwd_eq_some_iff (hjnz.mp hd ▸ hc)).mp hj
    rw [hd, State.erased_setPc_succ hpair.jz (by decide)]
    refine (execJnz_eq s.erased).trans ((if_pos hdp).trans ((if_neg hz).trans ?_))
    exact congrArg (fun m => outcome (jumpPast s.erased m)) hpair.erased.matchBwd
  · rw [isInstructionCharacter, hd] at hi
    cases hi

end

/-! ### One turn of the host that answers requests -/

/-- A move that goes on keeps the invariant, as the first move of a plan does. -/
theorem transition_keeps_engineInv {m : HostMove} {s t : State} (inv : EngineInv s)
    (h : transition m s = .next t) : EngineInv t :=
  everyStepKeepsEngineInvariant _ t (inv.with_trace_host s.trace (m :: s.host)) h

theorem engineInv_freshRun (text : Text) : EngineInv (freshRun text) :=
  have hreset : EngineInv (resetCommand text (State.reset.note (.command (.reset text)))) :=
    transition_keeps_engineInv (m := .command (.reset text)) resetMeetsEngineInvariant rfl
  transition_keeps_engineInv (m := .command .start) hreset rfl

/-- What one transition of `drive` does from `s` with `bytes` still to deliver: it leads to `t`, with `rest`
to deliver. -/
inductive Turn (s t : State) : List Byte → List Byte → Prop
  | wait (hs : s.status = .awaitingInput) (ht : t = s) : Turn s t [] []
  | deliver (b : Byte) (rest : List Byte) (hs : s.status = .awaitingInput)
      (hi : issue (.deliver b) s = .next t) : Turn s t (b :: rest) rest
  | engine (bytes : List Byte) (hs : s.status ≠ .awaitingInput) (hi : engineStep s = .next t) :
      Turn s t bytes bytes

/-- The engine runs at a character that is erased. -/
def AtNop (s : State) : Prop :=
  s.status = .running ∧ ∃ c, s.prog[s.pc]? = some c ∧ isInstructionCharacter c = false

section
variable {s t : State} {bytes rest : List Byte}

theorem Turn.drive_succ (h : Turn s t bytes rest) (n : Nat) :
    drive (n + 1) bytes s = drive n rest t := by
  cases h with
  | wait hs ht =>
    rw [drive_waits hs, ht]
    cases n with
    | zero => rfl
    | succ n => rw [drive_waits hs]
  | deliver b rest hs hi => exact drive_delivers hs hi n rest
  | engine bytes hs hi => exact drive_steps hs hi n bytes

theorem Turn.keeps_engineInv (h : Turn s t bytes rest) (inv : EngineInv s) : EngineInv t := by
  cases h with
  | wait _ ht => exact ht ▸ inv
  | deliver b _ _ hi => exact transition_keeps_engineInv (m := .command (.deliver b)) inv hi
  | engine _ _ hi => exact transition_keeps_engineInv (m := .engine) inv hi

theorem exists_turn (inv : EngineInv s) (bytes : List Byte) : ∃ t rest, Turn s t bytes rest := by
  by_cases hs : s.status = .awaitingInput
  · cases bytes with
    | nil => exact ⟨s, [], .wait hs rfl⟩
    | cons b rest => exact ⟨_, rest, .deliver b rest hs (issue_deliver_accepted b hs inv.dp_lt)⟩
  · obtain ⟨t, ht⟩ := engineStep_next inv
    exact ⟨t, bytes, .engine bytes hs ht⟩

/-- A turn at a no-op only advances. -/
theorem AtNop.turn (h : AtNop s) (bytes : List Byte) : Turn s s.advance bytes bytes := by
  obtain ⟨hs, c, hc, hi⟩ := h
  refine .engine bytes (by simp [hs]) ?_
  rw [engineStep_at_character hs hc, decode_of_not_instruction hi]
  rfl

/-- The erased text does not take the turn of a no-op. -/
theorem AtNop.erased_advance (h : AtNop s) : s.advance.erased = s.erased := by
  obtain ⟨-, c, hc, hi⟩ := h
  exact State.erased_advance_of_nop hc hi

theorem engineStep_erased (hn : ¬ AtNop s) (h : engineStep s = .next t) :
    engineStep s.erased = .next t.erased := by
  obtain ⟨hs, rfl⟩ | ⟨hs, hp, rfl⟩ | ⟨hs, c, hc, hx⟩ := engineStep_cases h
  · exact engineStep_of_not_running hs
  · have hend : s.erased.pc = s.erased.prog.length :=
      (congrArg (erasedAddress s.prog) hp).trans (erasedAddress_length s.prog)
    rw [engineStep_at_end (s := s.erased) hs hend, haltStep, haltStep, State.erased_emit,
      State.erased_setStatus]
  · have hi : isInstructionCharacter c = true := by
      by_contra hno
      exact hn ⟨hs, c, hc, by simpa using hno⟩
    have hfetch : s.erased.prog[s.erased.pc]? = some c := eraseNops_getElem? hc hi
    rw [engineStep_at_character (s := s.erased) hs hfetch, exec_erased hc hi hx]

/-- The byte is delivered at a `,`, which stands in the erased text too. -/
theorem issue_deliver_erased {b : Byte} (inv : EngineInv s) (hs : s.status = .awaitingInput)
    (h : issue (.deliver b) s = .next t) : issue (.deliver b) s.erased = .next t.erased := by
  have hpc := erasedAddress_succ_of_instruction (inv.awaiting_at_input hs) (by decide)
  rw [issue_deliver_accepted b hs inv.dp_lt] at h
  cases h
  rw [issue_deliver_accepted (s := s.erased) b hs inv.dp_lt]
  simp [State.erased, hpc, TraceItem.erased]

/-- Every turn but that of a no-op is a turn of the erased text. -/
theorem Turn.erased (h : Turn s t bytes rest) (inv : EngineInv s) (hn : ¬ AtNop s) :
    Turn s.erased t.erased bytes rest := by
  cases h with
  | wait hs ht => exact .wait hs (congrArg State.erased ht)
  | deliver b rest hs hi => exact .deliver b rest hs (issue_deliver_erased inv hs hi)
  | engine bytes hs hi => exact .engine bytes hs (engineStep_erased hn hi)

end

/-! ### Runs -/

/-- A run of the text, with its turns at no-ops left out, is a run of the erased text. -/
theorem drive_erased_of_drive {n : Nat} {bytes : List Byte} {s u : State} (inv : EngineInv s)
    (h : drive n bytes s = .next u) : ∃ n' ≤ n, drive n' bytes s.erased = .next u.erased := by
  induction n generalizing bytes s with
  | zero =>
    cases h
    exact ⟨0, le_rfl, rfl⟩
  | succ n ih =>
    by_cases hn : AtNop s
    · have turn := hn.turn bytes
      rw [turn.drive_succ] at h
      obtain ⟨n', hle, hrun⟩ := ih (turn.keeps_engineInv inv) h
      exact ⟨n', Nat.le_succ_of_le hle, hn.erased_advance ▸ hrun⟩
    · obtain ⟨t, rest, turn⟩ := exists_turn inv bytes
      rw [turn.drive_succ] at h
      obtain ⟨n', hle, hrun⟩ := ih (turn.keeps_engineInv inv) h
      exact ⟨n' + 1, Nat.succ_le_succ hle, ((turn.erased inv hn).drive_succ n').trans hrun⟩

/-- The turns at no-ops that come first end, by induction on what is left of the text. -/
theorem exists_drive_past_nops {s : State} (inv : EngineInv s) (bytes : List Byte) :
    ∃ k s', EngineInv s' ∧ ¬ AtNop s' ∧ s'.erased = s.erased ∧
      ∀ m, drive (m + k) bytes s = drive m bytes s' := by
  induction hleft : s.prog.length - s.pc generalizing s with
  | zero =>
    refine ⟨0, s, inv, ?_, rfl, fun _ => rfl⟩
    rintro ⟨-, c, hc, -⟩
    have := (List.getElem?_eq_some_iff.mp hc).1
    omega
  | succ d ih =>
    by_cases hn : AtNop s
    · have turn := hn.turn bytes
      obtain ⟨k, s', inv', hn', herased, hdrive⟩ := ih (turn.keeps_engineInv inv) (by
        rw [State.advance_prog, State.advance_pc]
        omega)
      exact ⟨k + 1, s', inv', hn', herased.trans hn.erased_advance,
        fun m => (turn.drive_succ (m + k)).trans (hdrive m)⟩
    · exact ⟨0, s, inv, hn, rfl, fun _ => rfl⟩

/-- A run of the erased text, with the turns at no-ops put in, is a run of the text. -/
theorem drive_of_drive_erased {n' : Nat} {bytes : List Byte} {s u' : State} (inv : EngineInv s)
    (h : drive n' bytes s.erased = .next u') :
    ∃ n u, n' ≤ n ∧ drive n bytes s = .next u ∧ u' = u.erased := by
  induction n' generalizing bytes s with
  | zero =>
    cases h
    exact ⟨0, s, le_rfl, rfl, rfl⟩
  | succ n' ih =>
    obtain ⟨k, s', inv', hn, herased, hdrive⟩ := exists_drive_past_nops inv bytes
    obtain ⟨t, rest, turn⟩ := exists_turn inv' bytes
    rw [← herased, (turn.erased inv' hn).drive_succ] at h
    obtain ⟨n, u, hle, hrun, hu⟩ := ih (turn.keeps_engineInv inv') h
    refine ⟨n + 1 + k, u, by omega, ?_, hu⟩
    rw [hdrive, turn.drive_succ, hrun]

/-- Settles O52: the run of the erased text ends in the image of where the text's run ends. -/
theorem erasedTextSimulatesText : Obligations.ErasedTextSimulatesText := by
  intro text bytes n t h
  obtain ⟨n', hle, hrun⟩ := drive_erased_of_drive (engineInv_freshRun text) h
  rw [← freshRun_erased] at hrun
  exact ⟨n', t.erased, hle, hrun, eventsOf_map_erased t.trace, rfl, rfl, rfl, rfl⟩

/-- Settles O53: the erased text's run ends in the image of where some run of the text ends. -/
theorem textSimulatesErasedText : Obligations.TextSimulatesErasedText := by
  intro text bytes n' t' h
  rw [freshRun_erased] at h
  obtain ⟨n, t, hle, hrun, rfl⟩ := drive_of_drive_erased (engineInv_freshRun text) h
  exact ⟨n, t, hle, hrun, eventsOf_map_erased t.trace, rfl, rfl, rfl, rfl⟩

end Sys2Proof.Machine
end

