-- ==== Sys2Proof/Proofs/Exceptions.lean ====
section
/-! The fatal errors (60_exceptions.md R170 to R177): which step raises which kind, what the fault entry
writes, and that nothing but `Reset` leaves `Fatal`. -/

namespace Sys2Proof.Machine

/-- Settles O22: the three writes of the fault entry, one after the other. -/
theorem faultEntryWritesStatusAndErr : Obligations.FaultEntryWritesStatusAndErr := fun _ _ => rfl

/-- Settles O23: the state by `resetSetsEveryItem` and the events by `newEvents_of_reset`, for each outcome
of the validation. -/
theorem resetRaisesStructuralErrorExactly : Obligations.ResetRaisesStructuralErrorExactly := by
  intro s text
  have hreset := (resetSetsEveryItem s text).1
  have hevents := newEvents_of_reset hreset
  refine ⟨_, hreset, ?_⟩
  rw [hevents]
  cases wellFormed text <;> simp

/-! ### The two tape faults -/

/-- The tape fault that the character `c` raises with `DP` at `dp`, if any (R172, R173). -/
def tapeFault (c : Byte) (dp : Nat) : Option FatalKind :=
  if c = codeLeft ∧ dp = 0 then some .tapeUnderflow
  else if c = codeRight ∧ ¬ dp + 1 < Config.tapeLen then some .tapeOverflow
  else none

theorem tapeFault_of_ne {c : Byte} (hl : c ≠ codeLeft) (hr : c ≠ codeRight) (dp : Nat) :
    tapeFault c dp = none := by
  simp [tapeFault, hl, hr]

theorem tapeFault_eq_underflow_iff {c : Byte} {dp : Nat} :
    tapeFault c dp = some .tapeUnderflow ↔ c = codeLeft ∧ dp = 0 := by
  unfold tapeFault
  split_ifs with h <;> simp [h]

theorem tapeFault_eq_overflow_iff {c : Byte} {dp : Nat} :
    tapeFault c dp = some .tapeOverflow ↔ c = codeRight ∧ ¬ dp + 1 < Config.tapeLen := by
  have hne : codeLeft ≠ codeRight := by decide
  unfold tapeFault
  split_ifs with hl hr
  · simp [hl.1, hne]
  · simp [hr]
  · simpa using hr

/-- An instruction emits its tape fault and no other fatal event. -/
theorem InstrEffect.fatal_mem_iff {s t : State} {c : Byte} (h : InstrEffect s t c) (k : FatalKind) :
    .fatal k ∈ newEvents s t ↔ tapeFault c s.dp = some k := by
  cases h with
  | underflow hc hd ht =>
    subst ht
    simp [newEvents, tapeFault_eq_underflow_iff.mpr ⟨hc, hd⟩, eq_comm]
  | overflow hc hd ht =>
    subst ht
    simp [newEvents, tapeFault_eq_overflow_iff.mpr ⟨hc, hd⟩, eq_comm]
  | left hc hd ht =>
    have hne : codeLeft ≠ codeRight := by decide
    subst ht
    simp [newEvents, tapeFault, hc, hd, hne]
  | right hc hd ht =>
    have hne : codeRight ≠ codeLeft := by decide
    subst ht
    simp [newEvents, tapeFault, hc, hd, hne]
  | nop hc ht =>
    obtain ⟨-, -, -, -, -, hl, hr, -, -⟩ := decode_nop_iff c c hc
    subst ht
    simp [newEvents, tapeFault_of_ne hl hr]
  | inc hc _ ht | dec hc _ ht | out hc _ ht | inp hc ht | jzThrough hc _ ht | jzTaken hc _ _ _ ht
  | jnzThrough hc _ ht | jnzTaken hc _ _ _ ht =>
    have hl : c ≠ codeLeft := by rw [hc]; decide
    have hr : c ≠ codeRight := by rw [hc]; decide
    subst ht
    simp [newEvents, tapeFault_of_ne hl hr]

/-- A step emits a fatal event other than the structural error exactly when the engine runs a character that
raises it: a command emits none but the structural error, and neither a hold nor the halt step emits one. -/
theorem step_emits_tapeFault_iff {s t : State} (h : step s = .next t) {k : FatalKind}
    (hk : k ≠ .structuralError) :
    .fatal k ∈ newEvents s t ↔ s.engineNext = true ∧ s.status = .running ∧
      ∃ c, s.prog[s.pc]? = some c ∧ tapeFault c s.dp = some k := by
  cases step_effect h with
  | instr c he _ hs hc hi =>
    calc .fatal k ∈ newEvents s t ↔ tapeFault c s.dp = some k := hi.fatal_mem_iff k
      _ ↔ _ := by simp [he, hs, hc]
  | halt _ _ _ hp ht =>
    subst ht
    simp [newEvents, hp]
  | hold _ _ hs ht =>
    subst ht
    simp [newEvents, hs]
  | resetRejected _ _ _ he _ _ ht =>
    subst ht
    simp [newEvents, he, hk]
  | reset _ _ _ he _ _ ht | start _ _ he _ _ ht | startRejected _ _ he _ _ ht
  | deliver _ _ _ he _ _ _ ht | deliverRejected _ _ _ he _ _ ht =>
    subst ht
    simp [newEvents, he]

/-- Settles O26: of all characters only `<` raises the underflow, at `DP` 0. -/
theorem underflowOnlyByLeftAtZero : Obligations.UnderflowOnlyByLeftAtZero := by
  intro s t h
  rw [step_emits_tapeFault_iff h (by decide)]
  simp only [tapeFault_eq_underflow_iff]
  simp [← and_assoc]

/-- Settles O27: of all characters only `>` raises the overflow, and the last `DP` of the tape is 29999. -/
theorem overflowOnlyByRightAtLastCell : Obligations.OverflowOnlyByRightAtLastCell := by
  intro s t hd h
  have hlast : ¬ s.dp + 1 < Config.tapeLen ↔ s.dp = 29999 := by rw [tapeLen_eq]; omega
  rw [step_emits_tapeFault_iff h (by decide)]
  simp only [tapeFault_eq_overflow_iff, hlast]
  simp [← and_assoc]

/-! ### `Fatal` is final until `Reset` -/

/-- Settles O28, one case for each head of the plan: the engine holds, and `Start` and `Deliver` are
rejected. -/
theorem fatalIsAbsorbing : Obligations.FatalIsAbsorbing := by
  intro s hs hreset
  have hrunning : s.status ≠ .running := by simp [hs]
  cases hh : s.host with
  | nil =>
    refine ⟨s, (step_nil hh).trans (engineStep_of_not_running hrunning), hs, ?_⟩
    simp [newEvents, State.engineNext, hh]
  | cons m ms =>
    cases m with
    | engine =>
      have hstep : step s = .next (s.setHost ms) :=
        (step_engine hh).trans (engineStep_of_not_running (s := s.setHost ms) hrunning)
      refine ⟨_, hstep, hs, ?_⟩
      simp [newEvents, State.engineNext, hh]
    | command c =>
      cases c with
      | reset p => simp [resetNext_of_reset hh] at hreset
      | start =>
        have hready : (s.setHost ms).status ≠ .ready := by simp [hs]
        refine ⟨_, (step_command hh).trans ((startRunsReadyEngine _).2 hready), hs, ?_⟩
        simp [newEvents, State.engineNext, hh]
      | deliver b =>
        have hawaiting : (s.setHost ms).status ≠ .awaitingInput := by simp [hs]
        refine ⟨_, (step_command hh).trans (issue_deliver_rejected b hawaiting), hs, ?_⟩
        simp [newEvents, State.engineNext, hh]

end Sys2Proof.Machine
end

