-- ==== Sys2Proof/Proofs/Signals.lean ====
section
/-! One cycle of the input signals (60_exceptions.md R179(c)), as the run of the moves it stands for. -/

namespace Sys2Proof.Machine

/-! ### Runs of a list of moves -/

section
variable {m : HostMove} {s t u : State}

theorem runMoves_cons_of_next (ms : List HostMove) (h : transition m s = .next t) :
    runMoves (m :: ms) s = runMoves ms t := by
  rw [runMoves, h]

theorem runMoves_singleton (m : HostMove) (s : State) : runMoves [m] s = transition m s := by
  rw [runMoves]
  cases transition m s <;> rfl

theorem runMoves_commands {c c' : Command} (h : issue c s = .next t) (h' : issue c' t = .next u) :
    runMoves [.command c, .command c'] s = .next u := by
  rw [runMoves_cons_of_next (m := .command c) _ h, runMoves_singleton, transition, h']

theorem transition_next (m : HostMove) (inv : EngineInv s) : ∃ t, transition m s = .next t := by
  cases m with
  | command c => exact issue_next inv.dp_lt c
  | engine => exact engineStep_next inv

/-- Whatever moves are taken from a state that meets the invariant, they all go on and keep it. -/
theorem runMoves_keeps_engineInv (ms : List HostMove) (inv : EngineInv s) :
    ∃ t, runMoves ms s = .next t ∧ EngineInv t := by
  induction ms generalizing s with
  | nil => exact ⟨s, rfl, inv⟩
  | cons m ms ih =>
    obtain ⟨t, ht⟩ := transition_next m inv
    rw [runMoves_cons_of_next ms ht]
    exact ih (transition_keeps_engineInv inv ht)

end

/-- Settles O58: a cycle is a run of moves, whichever its pins choose. -/
theorem everyCycleKeepsEngineInvariant : Obligations.EveryCycleKeepsEngineInvariant := fun p s inv =>
  runMoves_keeps_engineInv (cycleMoves p s.status) inv

/-! ### Both commands in one cycle -/

/-- In a status that accepts neither command both are rejected, in this order. -/
theorem runMoves_both_rejected {s : State} (b : Byte) (hr : s.status ≠ .ready)
    (ha : s.status ≠ .awaitingInput) :
    runMoves [.command .start, .command (.deliver b)] s = .next { s with
      trace := s.trace ++
        [.command .start, .event .misuse, .command (.deliver b), .event .misuse] } := by
  rw [runMoves_commands ((startRunsReadyEngine s).2 hr) (issue_deliver_rejected b ha)]
  simp

/-- Settles O56: no status accepts both commands, and the one that is rejected is rejected in the status
before the other and in the status after it. -/
theorem simultaneousCommandsAreOrderIndependent :
    Obligations.SimultaneousCommandsAreOrderIndependent := by
  intro s b hd
  by_cases hr : s.status = .ready
  · have ha : s.status ≠ .awaitingInput := by simp [hr]
    refine ⟨_, _, runMoves_commands ((startRunsReadyEngine s).1 hr) (issue_deliver_rejected b (by simp)),
      runMoves_commands (issue_deliver_rejected b ha) ((startRunsReadyEngine _).1 hr), rfl, ?_⟩
    simp [newEvents, hr]
  by_cases ha : s.status = .awaitingInput
  · refine ⟨_, _, runMoves_commands ((startRunsReadyEngine s).2 hr) (issue_deliver_accepted b ha hd),
      runMoves_commands (issue_deliver_accepted b ha hd) ((startRunsReadyEngine _).2 (by simp)), rfl, ?_⟩
    simp [newEvents, ha]
  · refine ⟨_, _, runMoves_both_rejected b hr ha,
      runMoves_commands (issue_deliver_rejected b ha) ((startRunsReadyEngine _).2 hr), rfl, ?_⟩
    simp [newEvents, hr, ha]

/-- Settles O57: `rst` leaves one move in the cycle; without it the two commands are those of
`runMoves_both_rejected`. -/
theorem signalPriorityInOneCycle : Obligations.SignalPriorityInOneCycle := by
  intro p s
  constructor
  · intro hrst
    rw [cycle, cycleMoves, if_pos hrst, runMoves_singleton]
    rfl
  · intro hrst hstart hvalid hengine hr ha
    have hmoves : cycleMoves p s.status = [.command .start, .command (.deliver p.inData)] := by
      simp [cycleMoves, hrst, hstart, hvalid, hengine]
    refine ⟨_, (congrArg (runMoves · s) hmoves).trans (runMoves_both_rejected p.inData hr ha), ?_⟩
    simp [pulses, newEvents]

end Sys2Proof.Machine
end

