-- ==== Sys2Proof/Proofs/Systems.lean ====
section
/-! Several engines side by side (60_exceptions.md R183). -/

namespace Sys2Proof.Machine

/-- Everything a step of a system that goes on can have done: engine `k` is not there, or it took its own
step. -/
theorem systemStep_cases {k : Nat} {sys sys' : System} (h : systemStep k sys = .next sys') :
    (sys[k]? = none ∧ sys' = sys) ∨
    ∃ s t, sys[k]? = some s ∧ step s = .next t ∧ sys' = sys.set k t := by
  unfold systemStep at h
  split at h
  next hk =>
    cases h
    exact .inl ⟨hk, rfl⟩
  next s hk =>
    split at h
    next t ht =>
      cases h
      exact .inr ⟨s, t, hk, ht, rfl⟩
    next => cases h
    next => cases h

/-- Settles O59: a step writes at `k` only. -/
theorem enginesShareNothing : Obligations.EnginesShareNothing := by
  intro k j sys sys' h hj
  obtain ⟨-, rfl⟩ | ⟨s, t, -, -, rfl⟩ := systemStep_cases h
  · rfl
  · exact List.getElem?_set_ne hj.symm

end Sys2Proof.Machine
end

