-- ==== Sys2Proof/Proofs/ValidationAndStart.lean ====
section
/-! What the validation accepts, and the run that `Reset` and `Start` open on an accepted text
(70_reset_and_hazards.md R202, R204). -/

namespace Sys2Proof.Machine

/-! ### The validation by depth -/

/-- The stack of the validation holds `[` only, so it is its height. One character moves the height by the
character's depth, as long as that stays at least 0. -/
theorem validateScan_replicate_cons {h : Nat} {c : Byte} (cs : Text) (hc : 0 ≤ h + bracketStep c) :
    ∃ h' : Nat, (h' : Int) = h + bracketStep c ∧
      validateScan (List.replicate h codeJz) (c :: cs) =
        validateScan (List.replicate h' codeJz) cs := by
  by_cases hjz : c = codeJz
  · subst hjz
    exact ⟨h + 1, rfl, validateScan_jz _ cs⟩
  by_cases hjnz : c = codeJnz
  · subst hjnz
    cases h with
    | zero => exact absurd hc (by decide)
    | succ h => exact ⟨h, by simp, validateScan_jnz _ cs⟩
  · refine ⟨h, by simp [bracketStep, hjz, hjnz], ?_⟩
    rw [validateScan_cons, if_neg hjz, if_neg hjnz]

/-- The converse of `bracketDepth_of_validateScan`. -/
theorem validateScan_of_bracketDepth {h : Nat} {cs : Text}
    (hpre : ∀ k, k ≤ cs.length → 0 ≤ h + bracketDepth (cs.take k)) (hall : h + bracketDepth cs = 0) :
    validateScan (List.replicate h codeJz) cs = true := by
  induction cs generalizing h with
  | nil =>
    obtain rfl : h = 0 := by simpa using hall
    rfl
  | cons c cs ih =>
    have hc : 0 ≤ h + bracketStep c := by simpa using hpre 1 (by simp)
    obtain ⟨h', hh', hscan⟩ := validateScan_replicate_cons cs hc
    rw [hscan]
    rw [bracketDepth_cons] at hall
    refine ih (fun k hk => ?_) (by omega)
    have := hpre (k + 1) (Nat.succ_le_succ hk)
    rw [List.take_succ_cons, bracketDepth_cons] at this
    omega

/-- Settles O45: the validation starts at height 0, where the height and the depth agree. -/
theorem validationIsDepthCount : Obligations.ValidationIsDepthCount := by
  intro text
  constructor
  · intro hw
    exact ⟨fun k _ => bracketDepth_take_nonneg hw k, bracketDepth_eq_zero hw⟩
  · rintro ⟨hpre, hall⟩
    exact validateScan_of_bracketDepth (h := 0) (by simpa using hpre) (by simpa using hall)

/-! ### The start on an accepted text -/

/-- R204: the whole state of an instance that was reset on a well-formed text and started. -/
theorem freshRun_of_wellFormed {text : Text} (hw : wellFormed text = true) :
    freshRun text = ⟨text, [], 0, 0, .running, none, [.command (.reset text), .command .start], []⟩ := by
  rw [freshRun, resetCommand, if_pos hw]
  rfl

/-- Settles O25: the items are read off the state of `freshRun_of_wellFormed`, whose trace holds the two
commands only. -/
theorem freshRunStartsAtZero : Obligations.FreshRunStartsAtZero := by
  intro text hw
  have inv := engineInv_freshRun text
  rw [freshRun_of_wellFormed hw] at inv ⊢
  exact ⟨rfl, rfl, rfl, rfl, rfl, Memory.read_nil, rfl, inv⟩

end Sys2Proof.Machine
end
